-- ==== Sys2Proof/Word.lean ====
section
/-! DEFINITION. The words of the block: the widths spec/30_encoding.md R71 to R73 gives its command word, its operands and its
response fields, and the widths of the two external bit strings (spec/00_scope.md R6, spec/10_state.md R36). -/

namespace Sys2Proof

/-- The command word `CMD` of the command port (R70, R71). -/
abbrev Cmd := BitVec 32

/-- A code unit, a number 0 to 31 (R52; `CODE_W` = 5, R6). -/
abbrev CodeUnit := BitVec 5

/-- A byte, the operand and result of `LZ.ENC` (R72, R120). -/
abbrev Byte := BitVec 8

/-- What carries a character: 21 bits, the operand field `arg` (R71), which is the widest a character field can be. How many of
them a block uses is its parameter `CHAR_W` (R7, R144): `Config.charW`. -/
abbrev CharCode := BitVec 21

/-- The seed input `RND[500:0]` (R36). -/
abbrev Seed := BitVec 501

/-- The snapshot `R_SNAP[107:0]` (R54, R136). -/
abbrev Snapshot := BitVec 108

end Sys2Proof
end

