-- ==== Sys2Proof/Config.lean ====
section
/-! DEFINITION. What an implementation fixes: the constants of spec/00_scope.md R6, the open parameters of its R7 as plain data
(`Config`), and the one free value of the model, a draw of the random source (spec/93_implementation_defined.md U8). -/

namespace Sys2Proof

/-- The twelve wheels in the fixed machine order a to l (R22). -/
inductive WheelName where
  | a | b | c | d | e | f | g | h | i | j | k | l
deriving DecidableEq, Repr

/-- `LEN[w]`, the number of cells of wheel `w` (R6, R22). -/
def WheelName.len : WheelName → Nat
  | .a => 43 | .b => 47 | .c => 51 | .d => 53 | .e => 59
  | .f => 37 | .g => 61
  | .h => 41 | .i => 31 | .j => 29 | .k => 26 | .l => 23

/-- The twelve wheels as a list, in machine order (R22). -/
def WheelName.all : List WheelName := [.a, .b, .c, .d, .e, .f, .g, .h, .i, .j, .k, .l]

/-- A partial map from code units to characters: entry `v` is the character at code `v`, `none` is `undef` (R7, R141). -/
abbrev CodeTable := Vector (Option CharCode) 32

/-- A packing, a function from the five head bits of a bank to a byte: entry `n` is the byte for the head bits `n`,
bit `i` of `n` being the head of the wheel at bank position `i` (R7, R107). -/
abbrev PackTable := Vector Byte 32

/-- The wheel the twelfth segment of the snapshot samples (R131, parameter `DRAW_SEG11_SRC`). -/
inductive Seg11Source where
  | wheelL
  | wheelB
deriving DecidableEq, Repr

/-- What a reset loads into the wheels (R190, parameter `RESET_LOAD`): one of the two constructors of the machine. -/
inductive ResetLoad where
  | zeroed
  | random
deriving DecidableEq, Repr

/-- What the model does with a reserved command word (R75): the block's own behaviour, no change and the response `NONE`, or
the refusal the spec advises a model to give. -/
inductive ReservedTreatment where
  | ignore
  | refuse
deriving DecidableEq, Repr

/-- The open parameters of the block (R7, R38), the same for every step of a run, and the treatment of reserved words. -/
structure Config where
  /-- `LTRS`, the letters table. -/
  ltrs : CodeTable
  /-- `FIGS`, the figures table. -/
  figs : CodeTable
  /-- `PACK_PSI`. -/
  packPsi : PackTable
  /-- `PACK_CHI`. -/
  packChi : PackTable
  /-- `DRAW_SEG11_SRC`. -/
  drawSeg11 : Seg11Source
  /-- `CHAR_W`, the width of the character fields of the command and the response: at most 21, the width of `arg` (R71), since it
  may only be narrowed (D4; assumption log, entry 6). -/
  charW : Fin 22
  /-- `RESET_LOAD`. -/
  resetLoad : ResetLoad
  /-- The treatment of reserved words (assumption log, entry 4). -/
  reservedWords : ReservedTreatment
deriving DecidableEq, Repr

/-- FREE VALUE. The `n`-th draw of the random source where the host is not stated to present a value of `RND` (U8: any value,
"a fresh draw unless the host is stated to present the same value"). No body: nothing constrains it. DESIGN CHOICE (assumption
log, entry 15): it is ONE stream for all blocks, so the `n`-th free draws of two blocks are one value, on which the spec says nothing
(R62); a claim must not compare the free draws of two blocks. -/
opaque Config.freeSeed : Nat → Seed

end Sys2Proof
end

