-- ==== Sys2Proof/Machine/Tables.lean ====
section
/-! DEFINITION. The shift controls, characters and the lookup in a table (spec/44_ita2_tables.md R140,
R144), and the default values of the open parameters (spec/00_scope.md R7): the tables of spec/44_ita2_tables.md R142, the
packing of spec/41_wheel_banks.md R107, and the others. -/

namespace Sys2Proof.Machine

/-- The figure-shift control `FIGS_CODE` (R6). -/
def figsCode : CodeUnit := 0x1B

/-- The letter-shift control `LTRS_CODE` (R6). -/
def ltrsCode : CodeUnit := 0x1F

/-- A Unicode scalar value (R144): 0 to 0x10FFFF and not 0xD800 to 0xDFFF. -/
def isScalar (c : CharCode) : Bool :=
  decide (c.toNat ≤ 0x10FFFF) && !(decide (0xD800 ≤ c.toNat) && decide (c.toNat ≤ 0xDFFF))

/-- The entry of a table at code `v`; `none` is `undef`. -/
def entry (t : CodeTable) (v : CodeUnit) : Option CharCode := t[v.toNat]'v.isLt

/-- The four shared codes with their characters: null, newline, space, carriage return (R140). -/
def sharedCodes : List (CodeUnit × CharCode) :=
  [(0x00#5, 0x0000#21), (0x02#5, 0x000A#21), (0x04#5, 0x0020#21), (0x08#5, 0x000D#21)]

/-- `c` is one of the four shared characters. -/
def isShared (c : CharCode) : Bool := (sharedCodes.map Prod.snd).contains c

/-- All 32 code units in order. -/
def allCodes : List CodeUnit := (List.range 32).map (BitVec.ofNat 5)


/-- The first half of the default `LTRS` (R142): codes 0x00 to 0x0F, `nul E lf A sp S I U cr D R J N F C K`. -/
def defaultLtrsLow : List (Option CharCode) :=
  [some 0x00, some 0x45, some 0x0A, some 0x41, some 0x20, some 0x53, some 0x49, some 0x55,
   some 0x0D, some 0x44, some 0x52, some 0x4A, some 0x4E, some 0x46, some 0x43, some 0x4B]

/-- The second half of the default `LTRS` (R142): codes 0x10 to 0x1F, `T Z L W H Y P Q O B G (figs) M X V (ltrs)`. -/
def defaultLtrsHigh : List (Option CharCode) :=
  [some 0x54, some 0x5A, some 0x4C, some 0x57, some 0x48, some 0x59, some 0x50, some 0x51,
   some 0x4F, some 0x42, some 0x47, none, some 0x4D, some 0x58, some 0x56, none]

/-- The first half of the default `FIGS` (R142): codes 0x00 to 0x0F, `nul 3 lf - sp apostrophe 8 7 cr enq 4 bel , ! : (`. -/
def defaultFigsLow : List (Option CharCode) :=
  [some 0x00, some 0x33, some 0x0A, some 0x2D, some 0x20, some 0x27, some 0x38, some 0x37,
   some 0x0D, some 0x05, some 0x34, some 0x07, some 0x2C, some 0x21, some 0x3A, some 0x28]

/-- The second half of the default `FIGS` (R142): codes 0x10 to 0x1F, `5 + ) 2 undef 6 0 1 9 ? & (figs) . / = (ltrs)`. -/
def defaultFigsHigh : List (Option CharCode) :=
  [some 0x35, some 0x2B, some 0x29, some 0x32, none, some 0x36, some 0x30, some 0x31,
   some 0x39, some 0x3F, some 0x26, none, some 0x2E, some 0x2F, some 0x3D, none]

/-- The default `LTRS` (R142). -/
def defaultLtrs : CodeTable := ⟨(defaultLtrsLow ++ defaultLtrsHigh).toArray, by decide⟩

/-- The default `FIGS` (R142). -/
def defaultFigs : CodeTable := ⟨(defaultFigsLow ++ defaultFigsHigh).toArray, by decide⟩

/-- The default packing of either bank (R53, R107): bit `i` of the byte is the head bit of the wheel at bank position `i`, bits
7:5 are zero. -/
def defaultPack : PackTable := ⟨((List.range 32).map (BitVec.ofNat 8)).toArray, by decide⟩

/-- The defaults of R7, and the block's own behaviour on reserved words (assumption log, entries 1 and 4). -/
def defaultConfig : Config :=
  { ltrs := defaultLtrs
    figs := defaultFigs
    packPsi := defaultPack
    packChi := defaultPack
    drawSeg11 := .wheelL
    charW := 21
    resetLoad := .zeroed
    reservedWords := .ignore }

end Sys2Proof.Machine
end

