-- ==== Sys2Proof/Syntax.lean ====
section
/-! DEFINITION. The nine commands of spec/30_encoding.md R74 (one constructor per row of spec/opcode_table.json), the fields of
the one command format (R71), and the names under which a word that is no command is rejected (R75). -/

namespace Sys2Proof

/-- The commands, with the operand R72 gives each. -/
inductive Instr where
  /-- `LZ.ZERO` (R116). -/
  | lzZero
  /-- `LZ.SEED` (R117); its operand is the input `RND`, not in the word. -/
  | lzSeed
  /-- `LZ.STEP` (R118). -/
  | lzStep
  /-- `LZ.ENC b` (R120). -/
  | lzEnc (b : Byte)
  /-- `LZ.DRAW` (R130). -/
  | lzDraw
  /-- `DEC.INIT` (R150). -/
  | decInit
  /-- `DEC.STEP v` (R151). -/
  | decStep (v : CodeUnit)
  /-- `ENC.INIT` (R160). -/
  | encInit
  /-- `ENC.STEP c` (R161). -/
  | encStep (c : CharCode)
deriving DecidableEq, Repr

/-- The fields of a command word (R71): `op` = bits 31:28, `mbz` = bits 27:21, `arg` = bits 20:0. -/
@[ext] structure Fields where
  op : BitVec 4
  mbz : BitVec 7
  arg : BitVec 21
deriving DecidableEq, Repr

/-- Why a word is reserved (R75). -/
inductive DecodeError where
  /-- `op` is one of 0x0, 0x6, 0x7, 0xC, 0xD, 0xE, 0xF. -/
  | unassignedOp
  /-- The must-be-zero field is not zero. -/
  | mbzNotZero
  /-- An `arg` bit the command does not use is not zero (for `ENC.STEP`, a bit from `CHAR_W` up). -/
  | unusedArgNotZero
deriving DecidableEq, Repr

end Sys2Proof
end

