-- ==== Sys2Proof/WellFormed.lean ====
section
/-! DEFINITION. Well-formedness: of the fields of a command word (spec/30_encoding.md R71, R72, R75) and of the parameters of
the block (spec/44_ita2_tables.md R141, R144). -/

namespace Sys2Proof

open Machine

/-- `op` is assigned to one of the nine commands (R74, R75). -/
def Fields.opAssigned (x : Fields) : Bool :=
  [0x1#4, 0x2#4, 0x3#4, 0x4#4, 0x5#4, 0x8#4, 0x9#4, 0xA#4, 0xB#4].contains x.op

/-- `mbz` is zero (R71). -/
def Fields.mbzZero (x : Fields) : Bool := x.mbz == 0#7

/-- How many low bits of `arg` the command with operation code `op` uses (R72); `ENC.STEP` uses `CHAR_W` of them (R7), 21 by
default. -/
def argBitsUsed (charW : Nat) (op : BitVec 4) : Nat :=
  match op.toNat with
  | 0x4 => 8
  | 0x9 => 5
  | 0xB => charW
  | _ => 0

/-- Every `arg` bit the command does not use is zero (R72, R75). -/
def Fields.unusedArgZero (charW : Nat) (x : Fields) : Bool := decide (x.arg.toNat < 2 ^ argBitsUsed charW x.op)

/-- The fields are those of a command of a block with character width `charW`, not of a reserved word (R75). -/
def Fields.wellFormed (charW : Nat) (x : Fields) : Bool := x.opAssigned && x.mbzZero && x.unusedArgZero charW

/-- (T1) of R141: the four shared codes hold their characters in both tables. -/
def Config.sharedFixed (k : Config) : Bool :=
  sharedCodes.all (fun p => entry k.ltrs p.1 == some p.2 && entry k.figs p.1 == some p.2)

/-- (T2) of R141: the shift controls have no entry. -/
def Config.controlsUndefined (k : Config) : Bool :=
  [figsCode, ltrsCode].all (fun v => entry k.ltrs v == none && entry k.figs v == none)

/-- (T3) of R141: a shared character occurs at no code but its own. -/
def Config.sharedOnlyThere (k : Config) : Bool :=
  sharedCodes.all (fun p => allCodes.all (fun v =>
    v == p.1 || (entry k.ltrs v != some p.2 && entry k.figs v != some p.2)))

/-- Two entries hold the same character and it is none of the shared ones. -/
def entriesClash : Option CharCode → Option CharCode → Bool
  | some c, some d => c == d && !isShared c
  | _, _ => false

/-- (T4) of R141: every other character occurs at most once in the two tables taken together. -/
def Config.othersOnce (k : Config) : Bool :=
  allCodes.all (fun u => allCodes.all (fun v =>
    (u == v || (!entriesClash (entry k.ltrs u) (entry k.ltrs v) && !entriesClash (entry k.figs u) (entry k.figs v))) &&
      !entriesClash (entry k.ltrs u) (entry k.figs v)))

/-- A character occurs in a table. -/
def tableHas (t : CodeTable) (c : CharCode) : Bool := allCodes.any (fun v => entry t v == some c)

/-- (T5) of R141: `A`, `B` are letters, `1`, `2` are figures, and each of `H E L O W R D , !` is in one of the tables. -/
def Config.namedCharacters (k : Config) : Bool :=
  [0x41#21, 0x42#21].all (tableHas k.ltrs) && [0x31#21, 0x32#21].all (tableHas k.figs) &&
    [0x48#21, 0x45#21, 0x4C#21, 0x4F#21, 0x57#21, 0x52#21, 0x44#21, 0x2C#21, 0x21#21].all
      (fun c => tableHas k.ltrs c || tableHas k.figs c)

/-- Every entry is a character, a Unicode scalar value (R141 "partial map … to characters", R144). -/
def Config.entriesScalar (k : Config) : Bool :=
  allCodes.all (fun v => (entry k.ltrs v).all isScalar && (entry k.figs v).all isScalar)

/-- Every entry fits in a character field of `CHAR_W` bits, in which `R_CHAR` must carry it (R7, R73, D4 "8 bits suffice for the
default tables"). -/
def Config.entriesFit (k : Config) : Bool :=
  allCodes.all (fun v => (entry k.ltrs v).all (fun c => decide (c.toNat < 2 ^ k.charW.val)) &&
    (entry k.figs v).all (fun c => decide (c.toNat < 2 ^ k.charW.val)))

/-- The table pair is well formed (R141; T6 asks nothing) and its characters fit in the character fields. The other parameters are
unconstrained. -/
structure Config.WellFormed (k : Config) : Prop where
  sharedFixed : k.sharedFixed = true
  controlsUndefined : k.controlsUndefined = true
  sharedOnlyThere : k.sharedOnlyThere = true
  othersOnce : k.othersOnce = true
  namedCharacters : k.namedCharacters = true
  entriesScalar : k.entriesScalar = true
  entriesFit : k.entriesFit = true

end Sys2Proof
end

