-- ==== Sys2Proof/Machine/Operands.lean ====
section
/-! DEFINITION. The operand forms: how the fields of a command word are taken apart and put together (spec/30_encoding.md R71)
and how each command's operand is assembled from `arg` (R72). -/

namespace Sys2Proof.Machine

/-- The fields of a command word (R71). -/
def fieldsOfWord (w : Cmd) : Fields :=
  { op := w.extractLsb' 28 4, mbz := w.extractLsb' 21 7, arg := w.extractLsb' 0 21 }

/-- The command word with the given fields (R71). -/
def wordOfFields (x : Fields) : Cmd := x.op ++ x.mbz ++ x.arg

/-- No operand: `arg` = 0 (R72). -/
def noOperand (arg : BitVec 21) (i : Instr) : Except DecodeError Instr :=
  if arg = 0#21 then .ok i else .error .unusedArgNotZero

/-- A byte operand: `arg[7:0]`, `arg[20:8]` = 0 (R72). -/
def byteOperand (arg : BitVec 21) (mk : Byte → Instr) : Except DecodeError Instr :=
  if arg.extractLsb' 8 13 = 0#13 then .ok (mk (arg.extractLsb' 0 8)) else .error .unusedArgNotZero

/-- A code-unit operand: `arg[4:0]`, `arg[20:5]` = 0 (R72). -/
def unitOperand (arg : BitVec 21) (mk : CodeUnit → Instr) : Except DecodeError Instr :=
  if arg.extractLsb' 5 16 = 0#16 then .ok (mk (arg.extractLsb' 0 5)) else .error .unusedArgNotZero

/-- A character operand: the low `CHAR_W` bits of `arg`, the others zero (R7, R71); all of `arg[20:0]` where `CHAR_W` is 21 (R72). A
value that is no scalar value is an operand all the same (R75). -/
def charOperand (charW : Nat) (arg : BitVec 21) (mk : CharCode → Instr) : Except DecodeError Instr :=
  if arg.toNat < 2 ^ charW then .ok (mk arg) else .error .unusedArgNotZero

end Sys2Proof.Machine
end

