-- ==== Sys2Proof/Decode.lean ====
section
/-! DEFINITION. The decoder and the encoder (spec/30_encoding.md R71, R72, R74, R75), for a block with character width `charW`
(`CHAR_W`, spec/00_scope.md R7). There are no bytes and no memory in this
block (spec/20_memory.md R50): a command word reaches the decoder whole, as one 32-bit number. -/

namespace Sys2Proof

/-- The command a set of fields stands for, or the reason why it is reserved (R74, R75). -/
def decodeFields (charW : Nat) (x : Fields) : Except DecodeError Instr :=
  if x.mbz = 0#7 then
    match x.op.toNat with
    | 0x1 => Machine.noOperand x.arg .lzZero
    | 0x2 => Machine.noOperand x.arg .lzSeed
    | 0x3 => Machine.noOperand x.arg .lzStep
    | 0x4 => Machine.byteOperand x.arg .lzEnc
    | 0x5 => Machine.noOperand x.arg .lzDraw
    | 0x8 => Machine.noOperand x.arg .decInit
    | 0x9 => Machine.unitOperand x.arg .decStep
    | 0xA => Machine.noOperand x.arg .encInit
    | 0xB => Machine.charOperand charW x.arg .encStep
    | _ => .error .unassignedOp
  else .error .mbzNotZero

/-- The decoder: total on 32-bit words, rejecting a reserved word by name (R75). -/
def decode (charW : Nat) (w : Cmd) : Except DecodeError Instr := decodeFields charW (Machine.fieldsOfWord w)

/-- The fields of a command (R71, R72, R74): `mbz` zero, the operand in the low bits of `arg`, the other bits of `arg` zero. -/
def Instr.fields : Instr → Fields
  | .lzZero => { op := 0x1, mbz := 0, arg := 0 }
  | .lzSeed => { op := 0x2, mbz := 0, arg := 0 }
  | .lzStep => { op := 0x3, mbz := 0, arg := 0 }
  | .lzEnc b => { op := 0x4, mbz := 0, arg := b.setWidth 21 }
  | .lzDraw => { op := 0x5, mbz := 0, arg := 0 }
  | .decInit => { op := 0x8, mbz := 0, arg := 0 }
  | .decStep v => { op := 0x9, mbz := 0, arg := v.setWidth 21 }
  | .encInit => { op := 0xA, mbz := 0, arg := 0 }
  | .encStep c => { op := 0xB, mbz := 0, arg := c }

/-- A command is well formed for a character width when its fields are those of a command. The operand types carry the widths of
R72, so every command is, but for an `ENC.STEP` whose character needs more than `charW` bits (`Laws.Fields`). -/
def Instr.wellFormed (charW : Nat) (i : Instr) : Bool := i.fields.wellFormed charW

/-- The encoder: the command word of a command (R71, R74). -/
def encode (i : Instr) : Cmd := Machine.wordOfFields i.fields

/-- The command the decoder reads from a table word of `nbits` bits, the bits above `nbits` being zero; a command has one
length, 32 bits (R71, R76), so a longer row is no command. The table is that of `CHAR_W` = 21, the default (R74). -/
def decodeTableWord (nbits w : Nat) : Option Instr :=
  if nbits ≤ 32 then (decode Machine.defaultConfig.charW (BitVec.ofNat 32 (w % 2 ^ nbits))).toOption else none

end Sys2Proof
end

