-- ==== Sys2Proof/Machine/Wheel.lean ====
section
/-! DEFINITION. The Wheel and its five operations (spec/40_wheel.md R90 to R94; state spec/10_state.md R21). -/

namespace Sys2Proof.Machine

/-- A wheel of length `n` (R21): bit `k` of `cells` is cell `k`, `head` is the head index. -/
structure Wheel (n : Nat) where
  cells : BitVec n
  head : Fin n
deriving DecidableEq, Repr

/-- `new_zeroed` (R90): every cell 0, head 0. -/
def newZeroed (n : Nat) [NeZero n] : Wheel n := { cells := 0#n, head := 0 }

/-- `new_random` (R91): cell `k` from bit `base + k` of `RND`, head 0. -/
def newRandom (n : Nat) [NeZero n] (rnd : Seed) (base : Nat) : Wheel n :=
  { cells := rnd.extractLsb' base n, head := 0 }

/-- `step_clockwise` (R92): the head index advances by one modulo the length; no cell changes. -/
def Wheel.stepClockwise {n : Nat} (x : Wheel n) : Wheel n :=
  { x with head := ⟨(x.head.val + 1) % n, Nat.mod_lt _ (Nat.zero_lt_of_lt x.head.isLt)⟩ }

/-- `read_head` (R93): the cell under the head. -/
def Wheel.readHead {n : Nat} (x : Wheel n) : Bool := x.cells.getLsbD x.head.val

/-- Element `j` of `as_array` (R94): the cell `j` positions ahead of the head, the index reduced modulo the length. -/
def Wheel.at {n : Nat} (x : Wheel n) (j : Nat) : Bool := x.cells.getLsbD ((x.head.val + j) % n)

/-- `as_array` (R94): the full contents from the head on, in the order the elements will come under the head. -/
def Wheel.asArray {n : Nat} (x : Wheel n) : List Bool := (List.range n).map x.at

end Sys2Proof.Machine
end

