-- ==== Sys2Proof/Machine/Banks.lean ====
section
/-! DEFINITION. The three banks and the Lorenz Machine that owns them, as data, and the operations of the machine on its wheels:
construction, `step_all`, `read_all`, `step_machine`, the keystream and `draw` (spec/41_wheel_banks.md R105 to R109,
spec/42_lorenz_step_encode.md R115 to R121, spec/43_lorenz_draw.md R130 to R136). -/

namespace Sys2Proof.Machine

/-- Bank Psi: five wheels (R105). -/
structure Psi where
  a : Wheel 43
  b : Wheel 47
  c : Wheel 51
  d : Wheel 53
  e : Wheel 59
deriving DecidableEq, Repr

/-- Bank Mu: two motor wheels (R105, R108). -/
structure Mu where
  f : Wheel 37
  g : Wheel 61
deriving DecidableEq, Repr

/-- Bank Chi: five wheels (R105). -/
structure Chi where
  h : Wheel 41
  i : Wheel 31
  j : Wheel 29
  k : Wheel 26
  l : Wheel 23
deriving DecidableEq, Repr

/-- The Lorenz Machine: the three banks and nothing else (R115). -/
structure Lorenz where
  psi : Psi
  mu : Mu
  chi : Chi
deriving DecidableEq, Repr

/-- The wheel `W[w]` (R22, R25: no two names denote the same wheel). -/
def Lorenz.wheel (m : Lorenz) : (w : WheelName) → Wheel w.len
  | .a => m.psi.a
  | .b => m.psi.b
  | .c => m.psi.c
  | .d => m.psi.d
  | .e => m.psi.e
  | .f => m.mu.f
  | .g => m.mu.g
  | .h => m.chi.h
  | .i => m.chi.i
  | .j => m.chi.j
  | .k => m.chi.k
  | .l => m.chi.l

/-- `BASE[w]`, the offset of wheel `w` in `RND` (R22, R117). -/
def baseOf : WheelName → Nat
  | .a => 0 | .b => 43 | .c => 90 | .d => 141 | .e => 194
  | .f => 253 | .g => 290
  | .h => 351 | .i => 392 | .j => 423 | .k => 452 | .l => 478

/-- The all-zero machine, every wheel by `new_zeroed` (R116). -/
def zeroedLorenz : Lorenz :=
  { psi := { a := newZeroed 43, b := newZeroed 47, c := newZeroed 51, d := newZeroed 53, e := newZeroed 59 }
    mu := { f := newZeroed 37, g := newZeroed 61 }
    chi := { h := newZeroed 41, i := newZeroed 31, j := newZeroed 29, k := newZeroed 26, l := newZeroed 23 } }

/-- The machine seeded from `RND`, every wheel by `new_random` (R117). -/
def randomLorenz (rnd : Seed) : Lorenz :=
  { psi :=
      { a := newRandom 43 rnd (baseOf .a), b := newRandom 47 rnd (baseOf .b), c := newRandom 51 rnd (baseOf .c),
        d := newRandom 53 rnd (baseOf .d), e := newRandom 59 rnd (baseOf .e) }
    mu := { f := newRandom 37 rnd (baseOf .f), g := newRandom 61 rnd (baseOf .g) }
    chi :=
      { h := newRandom 41 rnd (baseOf .h), i := newRandom 31 rnd (baseOf .i), j := newRandom 29 rnd (baseOf .j),
        k := newRandom 26 rnd (baseOf .k), l := newRandom 23 rnd (baseOf .l) } }

/-- `psi.step_all` (R106). -/
def Psi.stepAll (p : Psi) : Psi :=
  { a := p.a.stepClockwise, b := p.b.stepClockwise, c := p.c.stepClockwise, d := p.d.stepClockwise, e := p.e.stepClockwise }

/-- `chi.step_all` (R106). -/
def Chi.stepAll (x : Chi) : Chi :=
  { h := x.h.stepClockwise, i := x.i.stepClockwise, j := x.j.stepClockwise, k := x.k.stepClockwise, l := x.l.stepClockwise }

/-- One bit widened with zeros (R107, `zext`). -/
def zextBit (b : Bool) : BitVec 5 := (BitVec.ofBool b).setWidth 5

/-- Five bits in bank order, position `i` at bit `i` (R107). -/
def fiveBits (b0 b1 b2 b3 b4 : Bool) : BitVec 5 :=
  zextBit b0 ||| zextBit b1 <<< 1 ||| zextBit b2 <<< 2 ||| zextBit b3 <<< 3 ||| zextBit b4 <<< 4

/-- The five Psi head bits, wheel a first. -/
def Psi.headBits (p : Psi) : BitVec 5 :=
  fiveBits p.a.readHead p.b.readHead p.c.readHead p.d.readHead p.e.readHead

/-- The five Chi head bits, wheel h first. -/
def Chi.headBits (x : Chi) : BitVec 5 :=
  fiveBits x.h.readHead x.i.readHead x.j.readHead x.k.readHead x.l.readHead

/-- The byte a packing gives to five head bits. -/
def packByte (t : PackTable) (bits : BitVec 5) : Byte := t[bits.toNat]'bits.isLt

/-- `psi.read_all` under `PACK_PSI` (R107). -/
def Psi.readAll (p : Psi) (pack : PackTable) : Byte := packByte pack p.headBits

/-- `chi.read_all` under `PACK_CHI` (R107). -/
def Chi.readAll (x : Chi) (pack : PackTable) : Byte := packByte pack x.headBits

/-- The keystream byte `chi.read_all ^ psi.read_all` (R121). -/
def Lorenz.keystream (m : Lorenz) (k : Config) : Byte := m.chi.readAll k.packChi ^^^ m.psi.readAll k.packPsi

/-- Step 1 of `step_machine` (R118): Psi steps. -/
def Lorenz.stepPsi (m : Lorenz) : Lorenz := { m with psi := m.psi.stepAll }

/-- Step 2 of `step_machine` (R118): Chi steps if both Mu heads are 1. -/
def Lorenz.stepChiIfBoth (m : Lorenz) : Lorenz :=
  if m.mu.f.readHead && m.mu.g.readHead then { m with chi := m.chi.stepAll } else m

/-- Step 3 of `step_machine` (R118): `g` steps if the head of `f` is 1. -/
def Lorenz.stepGIfF (m : Lorenz) : Lorenz :=
  if m.mu.f.readHead then { m with mu := { m.mu with g := m.mu.g.stepClockwise } } else m

/-- Step 4 of `step_machine` (R118): `f` steps. -/
def Lorenz.stepF (m : Lorenz) : Lorenz := { m with mu := { m.mu with f := m.mu.f.stepClockwise } }

/-- `step_machine`: the four numbered steps in the source's order (R118). -/
def Lorenz.stepMachine (m : Lorenz) : Lorenz := m.stepPsi.stepChiIfBoth.stepGIfF.stepF

/-- The wheel each of the twelve segments samples (R131). -/
def segmentSources (src : Seg11Source) : List WheelName :=
  [.a, .b, .c, .d, .e, .f, .g, .h, .i, .j, .k] ++ (match src with | .wheelL => [.l] | .wheelB => [.b])

/-- The 0-indexed positions of the segments that are reversed in place (R132). -/
def mirroredSegments : List Nat := [0, 2, 4, 6, 8, 10]

/-- The nine slots of the segment at position `s` that samples wheel `w` (R130). -/
def Lorenz.segment (m : Lorenz) (w : WheelName) (s : Nat) : List Bool :=
  if mirroredSegments.contains s then ((m.wheel w).asArray.take 9).reverse else (m.wheel w).asArray.take 9

/-- The snapshot buffer (R130). -/
def Lorenz.drawBuffer (m : Lorenz) (src : Seg11Source) : List Bool :=
  (segmentSources src).zipIdx.flatMap (fun p => m.segment p.1 p.2)

/-- A sequence of booleans as a number, element 0 at bit 0 (R54, R136). -/
def bitsToNat : List Bool → Nat
  | [] => 0
  | b :: rest => b.toNat + 2 * bitsToNat rest

/-- `R_SNAP` (R136). -/
def Lorenz.draw (m : Lorenz) (src : Seg11Source) : Snapshot := BitVec.ofNat 108 (bitsToNat (m.drawBuffer src))

end Sys2Proof.Machine
end

