-- ==== Sys2Proof/Machine/State.lean ====
section
/-! DEFINITION. The state of the block (spec/10_state.md R20: twelve wheels and two shift flags), with the model's own fields
beside it: the parameters, the host's inputs and the responses the host has observed. Plain data. -/

namespace Sys2Proof.Machine

/-- The response of a command (spec/30_encoding.md R73): a kind and the payload that kind lists; a field the kind does not list
cannot be read (U9). -/
inductive Response where
  /-- `NONE`. -/
  | none
  /-- `CHAR`: `R_CHAR`. -/
  | char (c : CharCode)
  /-- `UNIT1`: `R_U0`. -/
  | unit1 (u0 : CodeUnit)
  /-- `UNIT2`: `R_U0`, a shift control, then `R_U1`, the code unit. -/
  | unit2 (u0 u1 : CodeUnit)
  /-- `BYTE`: `R_BYTE`. -/
  | byte (b : Byte)
  /-- `SNAP`: `R_SNAP`. -/
  | snap (buf : Snapshot)
deriving DecidableEq, Repr

/-- One move of the host (spec/70_reset_and_hazards.md R206): the reset, or one command word. -/
inductive HostMove where
  | reset
  | command (w : Cmd)
deriving DecidableEq, Repr

/-- The block raises no exception (spec/60_exceptions.md R170), so there is no fault: nothing raises one. -/
inductive Fault where
deriving DecidableEq, Repr

/-- Why a step gives no next state. -/
inductive Refusal where
  /-- Raised by an arm of `exec` for a command that has no meaning yet, and by nothing else. Safe: the run stops. -/
  | notModelled (mnemonic : String)
  /-- Raised by `reservedWord` for a word that is no command, where `cfg.reservedWords` is `refuse` (R75: "A model should refuse
  a reserved word"). Safe: the run stops where the block would answer `NONE`. -/
  | reservedWord (w : Cmd)
deriving DecidableEq, Repr

/-- The state. `lorenz`, `fsDec` and `fsEnc` are the block's (R20). The other fields are the model's: the parameters (R7, R38),
what the host will present (R36, R70, R206) and what it has observed (R73, R205). -/
structure State where
  /-- The twelve wheels (R20 (1), R115). -/
  lorenz : Lorenz
  /-- `FS_DEC`, the Decoder's `figure_shift`: `false` letters, `true` figures (R26). -/
  fsDec : Bool
  /-- `FS_ENC`, the Encoder's `figure_shift`: `false` letters, `true` figures (R27). -/
  fsEnc : Bool
  /-- The parameters; no step changes them (R38). -/
  cfg : Config
  /-- The moves the host has still to make, oldest first (R70, R205). -/
  hostMoves : List HostMove
  /-- The values of `RND` the host is stated to present at the next seedings, oldest first (R36). -/
  seeds : List Seed
  /-- How many free draws of `RND` have been taken (U8). -/
  draws : Nat
  /-- The responses the host has observed, oldest first (R73, R205). -/
  responses : List Response
deriving DecidableEq, Repr

/-- The block right after reset (R37, R190): every cell and head 0, both flags 0; the parameters at their defaults (R7); the
host has presented and observed nothing. -/
def State.reset : State :=
  { lorenz := zeroedLorenz
    fsDec := false
    fsEnc := false
    cfg := defaultConfig
    hostMoves := []
    seeds := []
    draws := 0
    responses := [] }

end Sys2Proof.Machine
end

