-- ==== Sys2Proof/Machine/Ops.lean ====
section
/-! DEFINITION. The named operations over the state: writing the machine and the flags, answering a command, sampling `RND`, the
host's reset, a reserved word, and taking the host's next move. The block has no exceptions (spec/60_exceptions.md R170, R175,
R176), so there is no entry to one and no return from one. -/

namespace Sys2Proof.Machine

/-- Replace the Lorenz Machine. -/
def State.setLorenz (s : State) (m : Lorenz) : State := { s with lorenz := m }

/-- Write `FS_DEC` (R26). -/
def State.setFsDec (s : State) (b : Bool) : State := { s with fsDec := b }

/-- Write `FS_ENC` (R27). -/
def State.setFsEnc (s : State) (b : Bool) : State := { s with fsEnc := b }

/-- Produce the response of a command (R73); the host observes it (R205). -/
def State.respond (s : State) (r : Response) : State := { s with responses := s.responses ++ [r] }

/-- The value of `RND` at this moment (R36): the next one the host is stated to present, else a free draw (U8). DESIGN CHOICE
(assumption log, entry 15): the free draw is fixed by `draws` alone, so two blocks (R62) whose hosts present nothing and that have
taken equally many free draws get one value, whether or not their hosts meet the duty of R194; the spec leaves open how the free
values of two blocks relate. -/
def State.rnd (s : State) : Seed :=
  match s.seeds with
  | r :: _ => r
  | [] => Config.freeSeed s.draws

/-- The state after `RND` has been sampled once: the next sampling sees another value (U8). -/
def State.rndTaken (s : State) : State :=
  match s.seeds with
  | _ :: rest => { s with seeds := rest }
  | [] => { s with draws := s.draws + 1 }

/-- Load the all-zero machine (R116). -/
def State.loadZeroed (s : State) : State := s.setLorenz zeroedLorenz

/-- Sample `RND` and load the machine from it (R117). -/
def State.loadRandom (s : State) : State := s.rndTaken.setLorenz (randomLorenz s.rnd)

/-- The host's reset (R190, R206): the wheels are loaded as `RESET_LOAD` says, both flags become 0, there is no response. -/
def State.hostReset (s : State) : State :=
  match s.cfg.resetLoad with
  | .zeroed => ((s.loadZeroed).setFsDec false).setFsEnc false
  | .random => ((s.loadRandom).setFsDec false).setFsEnc false

/-- A reserved word (R75, R172): no state changes and the response is `NONE`; or, where the parameter says so, the refusal the
spec advises a model to give (assumption log, entry 4). -/
def reservedWord (w : Cmd) (s : State) : Host.Outcome State Fault Refusal :=
  match s.cfg.reservedWords with
  | .ignore => .next (s.respond .none)
  | .refuse => .refused (.reservedWord w)

/-- The host's next move and the state in which it is carried out; `none` while the host presents nothing (R70, R191). -/
def State.nextMove (s : State) : Option (HostMove × State) :=
  match s.hostMoves with
  | [] => none
  | m :: rest => some (m, { s with hostMoves := rest })

/-- The host makes `m` its next move, before all others it has still to make. -/
def State.presentMove (s : State) (m : HostMove) : State := { s with hostMoves := m :: s.hostMoves }

end Sys2Proof.Machine
end

