-- ==== Sys2Proof/Machine/Flags.lean ====
section
/-! DEFINITION. The two shift flags and what is computed from them: the Decoder's and the Encoder's step functions, each from the
flag and one input to the new flag and the response (spec/45_ita2_decoder.md R151, spec/46_ita2_encoder.md R161), and the
reverse map `ENC_MAP` (spec/44_ita2_tables.md R143). There are no other flags (spec/10_state.md R29). -/

namespace Sys2Proof.Machine

/-- The table a shift state selects: `FIGS` in figures, `LTRS` in letters (R26, R151). -/
def activeTable (k : Config) (figureShift : Bool) : CodeTable := if figureShift then k.figs else k.ltrs

/-- The Decoder's step (R151): the flag after, and the response. -/
def decodeUnit (k : Config) (figureShift : Bool) (v : CodeUnit) : Bool × Response :=
  if v = figsCode then (true, .none)
  else if v = ltrsCode then (false, .none)
  else
    match entry (activeTable k figureShift) v with
    | none => (figureShift, .none)
    | some c => (figureShift, .char c)

/-- The class of a character, "its native table" (R143). -/
inductive CharClass where
  | shared
  | letters
  | figures
deriving DecidableEq, Repr

/-- The first code of a table that holds `c`. -/
def codeOf (t : CodeTable) (c : CharCode) : Option CodeUnit := allCodes.find? (fun v => entry t v == some c)

/-- The shared code of `c`, if it is one of the four shared characters (R140). -/
def sharedCodeOf (c : CharCode) : Option CodeUnit := (sharedCodes.find? (fun p => p.2 == c)).map Prod.fst

/-- `ENC_MAP` (R143): a value that is no scalar value has no mapping (R144). -/
def encMap (k : Config) (c : CharCode) : Option (CodeUnit × CharClass) :=
  if isScalar c then
    match sharedCodeOf c with
    | some v => some (v, .shared)
    | none =>
      match codeOf k.ltrs c with
      | some v => some (v, .letters)
      | none =>
        match codeOf k.figs c with
        | some v => some (v, .figures)
        | none => none
  else none

/-- The Encoder's step (R161): the flag after, and the response. -/
def encodeChar (k : Config) (figureShift : Bool) (c : CharCode) : Bool × Response :=
  match encMap k c with
  | none => (figureShift, .none)
  | some (v, .shared) => (figureShift, .unit1 v)
  | some (v, .letters) => if figureShift then (false, .unit2 ltrsCode v) else (figureShift, .unit1 v)
  | some (v, .figures) => if figureShift then (figureShift, .unit1 v) else (true, .unit2 figsCode v)

end Sys2Proof.Machine
end

