-- ==== Sys2Proof/Machine/Codec.lean ====
section
/-! DEFINITION. The meanings of the ITA2 codec commands (spec/45_ita2_decoder.md R150, R151; spec/46_ita2_encoder.md R160,
R161). -/

namespace Sys2Proof.Machine

/-- `DEC.INIT` (R150). -/
def execDecInit (s : State) : Host.Outcome State Fault Refusal := .next ((s.setFsDec false).respond .none)

/-- `DEC.STEP v` (R151). -/
def execDecStep (v : CodeUnit) (s : State) : Host.Outcome State Fault Refusal :=
  .next ((s.setFsDec (decodeUnit s.cfg s.fsDec v).1).respond (decodeUnit s.cfg s.fsDec v).2)

/-- `ENC.INIT` (R160): no code unit is emitted. -/
def execEncInit (s : State) : Host.Outcome State Fault Refusal := .next ((s.setFsEnc false).respond .none)

/-- `ENC.STEP c` (R161). -/
def execEncStep (c : CharCode) (s : State) : Host.Outcome State Fault Refusal :=
  .next ((s.setFsEnc (encodeChar s.cfg s.fsEnc c).1).respond (encodeChar s.cfg s.fsEnc c).2)

end Sys2Proof.Machine
end

