-- ==== Sys2Proof/Machine/Lorenz.lean ====
section
/-! DEFINITION. The meanings of the Lorenz Machine commands (spec/42_lorenz_step_encode.md R116 to R120, spec/43_lorenz_draw.md
R130). -/

namespace Sys2Proof.Machine

/-- `LZ.ZERO` (R116). -/
def execLzZero (s : State) : Host.Outcome State Fault Refusal := .next (s.loadZeroed.respond .none)

/-- `LZ.SEED` (R117). -/
def execLzSeed (s : State) : Host.Outcome State Fault Refusal := .next (s.loadRandom.respond .none)

/-- `LZ.STEP` (R118). -/
def execLzStep (s : State) : Host.Outcome State Fault Refusal :=
  .next ((s.setLorenz s.lorenz.stepMachine).respond .none)

/-- `LZ.ENC b` (R120): eight bits, nothing masked; no state written. -/
def execLzEnc (b : Byte) (s : State) : Host.Outcome State Fault Refusal :=
  .next (s.respond (.byte (b ^^^ s.lorenz.keystream s.cfg)))

/-- `LZ.DRAW` (R130): no state written. -/
def execLzDraw (s : State) : Host.Outcome State Fault Refusal :=
  .next (s.respond (.snap (s.lorenz.draw s.cfg.drawSeg11)))

end Sys2Proof.Machine
end

