-- ==== Sys2Proof/Machine/Dispatch.lean ====
section
/-! DEFINITION. The one dispatch: which meaning each command has. -/

namespace Sys2Proof.Machine

def exec (i : Instr) (s : State) : Host.Outcome State Fault Refusal :=
  match i with
  | .lzZero => Sys2Proof.Machine.execLzZero s
  | .lzSeed => Sys2Proof.Machine.execLzSeed s
  | .lzStep => Sys2Proof.Machine.execLzStep s
  | .lzEnc b => Sys2Proof.Machine.execLzEnc b s
  | .lzDraw => Sys2Proof.Machine.execLzDraw s
  | .decInit => Sys2Proof.Machine.execDecInit s
  | .decStep v => Sys2Proof.Machine.execDecStep v s
  | .encInit => Sys2Proof.Machine.execEncInit s
  | .encStep c => Sys2Proof.Machine.execEncStep c s

end Sys2Proof.Machine
end

