-- ==== Sys2Proof/Machine/Step.lean ====
section
/-! DEFINITION. One step: the block carries out the host's next move, or waits while there is none (spec/30_encoding.md R70,
spec/70_reset_and_hazards.md R191, R205, R206). -/

namespace Sys2Proof.Machine

/-- One command word: the command it decodes to in a block of this character width, or a reserved word (R7, R74, R75). -/
def runWord (w : Cmd) (s : State) : Host.Outcome State Fault Refusal :=
  match decode s.cfg.charW w with
  | .ok i => exec i s
  | .error _ => reservedWord w s

/-- One step of the block. -/
def step (s : State) : Host.Outcome State Fault Refusal :=
  match s.nextMove with
  | none => .next s
  | some (.reset, s') => .next s'.hostReset
  | some (.command w, s') => runWord w s'

/-- The command word with bits `w` presented as the host's next move (assumption log, entry 2). -/
def State.withFetchWord (s : State) (nbits w : Nat) : State :=
  s.presentMove (.command (BitVec.ofNat 32 (w % 2 ^ nbits)))

end Sys2Proof.Machine
end

