-- ==== Sys2Proof/Machine/Pseudo.lean ====
section
/-! DEFINITION. The pseudo-instructions of spec/30_encoding.md R78 (each a list of commands, with no encoding of its own), and what
the host reads off the responses they give (R78, spec/46_ita2_encoder.md R162, spec/45_ita2_decoder.md R152). -/

namespace Sys2Proof.Machine

/-- A run of `k` steps (R205: every prefix of a run is a run), stopping where a step gives no next state. -/
def runSteps : Nat → State → Host.Outcome State Fault Refusal
  | 0, s => .next s
  | k + 1, s =>
    match step s with
    | .next t => runSteps k t
    | .fault r => .fault r
    | .refused r => .refused r

/-- The host's moves that issue the given commands in order (R70). -/
def commandMoves (is : List Instr) : List HostMove := is.map (fun i => .command (encode i))

/-- `LZ.CRYPT b` (R78): `LZ.ENC b` then `LZ.STEP`. -/
def lzCrypt (b : Byte) : List Instr := [.lzEnc b, .lzStep]

/-- `ENC.STR` (R78): `ENC.STEP c` for each character in order. -/
def encStr (cs : List CharCode) : List Instr := cs.map .encStep

/-- `DEC.SEQ` (R78): `DEC.STEP v` for each unit in order. -/
def decSeq (vs : List CodeUnit) : List Instr := vs.map .decStep

/-- The code units a response carries, `R_U0` before `R_U1` (R78, R196). -/
def unitsOf : Response → List CodeUnit
  | .unit1 u0 => [u0]
  | .unit2 u0 u1 => [u0, u1]
  | _ => []

/-- The character a response carries, if any (R78, R152). -/
def charsOf : Response → List CharCode
  | .char c => [c]
  | _ => []

/-- The flat code-unit stream of a sequence of responses (R162). -/
def flatUnits (rs : List Response) : List CodeUnit := rs.flatMap unitsOf

/-- The decoded output of a sequence of responses (R152). -/
def decodedChars (rs : List Response) : List CharCode := rs.flatMap charsOf

end Sys2Proof.Machine
end

