-- ==== Sys2Proof/Safety.lean ====
section
/-! DEFINITION. The terms the statements are made in: what a command leaves unchanged, which words are commands, the rules'
tables written once more from the spec's text (so that a statement does not rest on the model's own tables), the invariants, and
the relations between two machines. -/

namespace Sys2Proof.Safety

open Machine

/-! ## Frames -/

/-- The command answers `r` (R73: exactly one response), and changes neither the parameters (R38) nor what the host will do
next. -/
structure Answers (s t : State) (r : Response) : Prop where
  responses : t.responses = s.responses ++ [r]
  cfg : t.cfg = s.cfg
  hostMoves : t.hostMoves = s.hostMoves

/-- The wheels are unchanged (R24). -/
def SameWheels (s t : State) : Prop := t.lorenz = s.lorenz

/-- Both shift flags are unchanged (R26, R27). -/
def SameFlags (s t : State) : Prop := t.fsDec = s.fsDec ∧ t.fsEnc = s.fsEnc

/-- `RND` has not been sampled (R24: only `LZ.SEED` reads it). -/
def SameRandom (s t : State) : Prop := t.seeds = s.seeds ∧ t.draws = s.draws

/-! ## Command words, from spec/30_encoding.md -/

/-- A reserved word (R75) of a block with character width `charW`, said with the numbers of R71 and R72: `op` = bits 31:28,
`mbz` = bits 27:21, `arg` = bits 20:0. At `charW` = 21 the last case never holds. -/
def IsReserved (charW : Nat) (w : Cmd) : Prop :=
  let op := w.toNat / 2 ^ 28
  let mbz := w.toNat / 2 ^ 21 % 2 ^ 7
  let arg := w.toNat % 2 ^ 21
  op ∈ [0x0, 0x6, 0x7, 0xC, 0xD, 0xE, 0xF] ∨ mbz ≠ 0 ∨
  (op ∈ [0x1, 0x2, 0x3, 0x5, 0x8, 0xA] ∧ arg ≠ 0) ∨ (op = 0x4 ∧ 2 ^ 8 ≤ arg) ∨ (op = 0x9 ∧ 2 ^ 5 ≤ arg) ∨
  (op = 0xB ∧ 2 ^ charW ≤ arg)

/-- The operand of the command fits in the fields of a block with character width `charW` (R7, R72): only `ENC.STEP` can fail to. -/
def OperandFits (charW : Nat) (i : Instr) : Prop :=
  match i with
  | .encStep c => c.toNat < 2 ^ charW
  | _ => True

/-- The `match` column of R74. -/
def rowMatch : Instr → Cmd
  | .lzZero => 0x10000000
  | .lzSeed => 0x20000000
  | .lzStep => 0x30000000
  | .lzEnc _ => 0x40000000
  | .lzDraw => 0x50000000
  | .decInit => 0x80000000
  | .decStep _ => 0x90000000
  | .encInit => 0xA0000000
  | .encStep _ => 0xB0000000

/-- The `mask` column of R74. -/
def rowMask : Instr → Cmd
  | .lzZero => 0xFFFFFFFF
  | .lzSeed => 0xFFFFFFFF
  | .lzStep => 0xFFFFFFFF
  | .lzEnc _ => 0xFFFFFF00
  | .lzDraw => 0xFFFFFFFF
  | .decInit => 0xFFFFFFFF
  | .decStep _ => 0xFFFFFFE0
  | .encInit => 0xFFFFFFFF
  | .encStep _ => 0xFFE00000

/-- The operand of the command is the field R72 gives it. -/
def OperandIs (i : Instr) (w : Cmd) : Prop :=
  match i with
  | .lzEnc b => b.toNat = w.toNat % 2 ^ 8
  | .decStep v => v.toNat = w.toNat % 2 ^ 5
  | .encStep c => c.toNat = w.toNat % 2 ^ 21
  | _ => True

/-- `R_KIND` of a response (R73). -/
def kindOf : Response → Nat
  | .none => 0
  | .char _ => 1
  | .unit1 _ => 2
  | .unit2 _ _ => 3
  | .byte _ => 4
  | .snap _ => 5

/-- The kinds a command may answer with (R73, "produced by"). -/
def kindsOf : Instr → List Nat
  | .lzZero | .lzSeed | .lzStep | .decInit | .encInit => [0]
  | .lzEnc _ => [4]
  | .lzDraw => [5]
  | .decStep _ => [0, 1]
  | .encStep _ => [0, 2, 3]

/-! ## The Lorenz Machine, from spec/42_lorenz_step_encode.md and spec/43_lorenz_draw.md -/

/-- How far the head of a wheel moves on a tick, `F` and `G` being the Mu head bits before it (R119). -/
def advance (F G : Bool) : WheelName → Nat
  | .a | .b | .c | .d | .e | .f => 1
  | .g => F.toNat
  | .h | .i | .j | .k | .l => (F && G).toNat

/-- `BASE[w]` as R22 and R117 list it. -/
def seedBase : WheelName → Nat
  | .a => 0
  | .b => 43
  | .c => 90
  | .d => 141
  | .e => 194
  | .f => 253
  | .g => 290
  | .h => 351
  | .i => 392
  | .j => 423
  | .k => 452
  | .l => 478

/-- Every cell of the machine is 0. -/
def AllZero (m : Lorenz) : Prop := ∀ w, (m.wheel w).cells = 0

/-- The wheel segment `p` samples (R131, the table's rows). -/
def segmentWheel (src : Seg11Source) : Nat → WheelName
  | 0 => .a
  | 1 => .b
  | 2 => .c
  | 3 => .d
  | 4 => .e
  | 5 => .f
  | 6 => .g
  | 7 => .h
  | 8 => .i
  | 9 => .j
  | 10 => .k
  | _ => match src with
    | .wheelL => .l
    | .wheelB => .b

/-- Cell `j` positions ahead of the head of wheel `w` (R94): `W[w].c[(W[w].h + j) mod LEN[w]]`. -/
def cellAhead (m : Lorenz) (w : WheelName) (j : Nat) : Bool :=
  (m.wheel w).cells.getLsbD (((m.wheel w).head.val + j) % w.len)

/-- The head bits of the named wheels as a number, the first wheel at bit 0 (R107). -/
def headNumber (m : Lorenz) : List WheelName → Nat
  | [] => 0
  | w :: ws => (cellAhead m w 0).toNat + 2 * headNumber m ws

/-- Two machines no operation can tell apart (R21): every `as_array` is the same. -/
def SameArrays (m n : Lorenz) : Prop := ∀ w, (m.wheel w).asArray = (n.wheel w).asArray

/-- Two states that agree in everything but the representation of the wheels (R21). -/
structure ObsEq (s t : State) : Prop where
  arrays : SameArrays s.lorenz t.lorenz
  fsDec : s.fsDec = t.fsDec
  fsEnc : s.fsEnc = t.fsEnc
  cfg : s.cfg = t.cfg
  hostMoves : s.hostMoves = t.hostMoves
  seeds : s.seeds = t.seeds
  draws : s.draws = t.draws
  responses : s.responses = t.responses

/-- The split front/rear representation of a wheel (R34), with the stack orientation of R35: `front` is a stack whose top is its
LAST element, `rear` lists the elements in the order they passed the head. -/
structure SplitWheel where
  front : List Bool
  rear : List Bool
deriving DecidableEq, Repr

/-- `as_array = reverse(front) ++ rear` (R35). -/
def SplitWheel.asArray (x : SplitWheel) : List Bool := x.front.reverse ++ x.rear

/-- `read_head = top(front)` (R35). -/
def SplitWheel.readHead (x : SplitWheel) : Option Bool := x.front.getLast?

/-- `front <- reverse(rear)`, `rear <- empty` if `front` is empty (R35). -/
def SplitWheel.renormalise (x : SplitWheel) : SplitWheel :=
  if x.front = [] then { front := x.rear.reverse, rear := [] } else x

/-- `step_clockwise` (R35): pop the top of `front`, append it to `rear`, then renormalise. -/
def SplitWheel.stepClockwise (x : SplitWheel) : SplitWheel :=
  SplitWheel.renormalise { front := x.front.dropLast, rear := x.rear ++ x.front.getLast?.toList }

/-- After construction `front = reverse(cells)`, `rear = empty` (R35). -/
def SplitWheel.ofCells (cells : List Bool) : SplitWheel := { front := cells.reverse, rear := [] }

/-! ## The codec, from spec/44_ita2_tables.md to spec/46_ita2_encoder.md -/

/-- A shift control (R140). -/
def IsControl (v : CodeUnit) : Prop := v = 0x1B#5 ∨ v = 0x1F#5

/-- `c` is a shared character with code `v` (R140). -/
def MapsShared (c : CharCode) (v : CodeUnit) : Prop := (c, v) ∈ [(0x00#21, 0x00#5), (0x0A#21, 0x02#5), (0x20#21, 0x04#5), (0x0D#21, 0x08#5)]

/-- `c` is one of the four shared characters (R140). -/
def SharedChar (c : CharCode) : Prop := ∃ v, MapsShared c v

/-- `c` is a letters-class character with code `v` (R143). -/
def MapsLetters (k : Config) (c : CharCode) (v : CodeUnit) : Prop := ¬ SharedChar c ∧ entry k.ltrs v = some c

/-- `c` is a figures-class character with code `v` (R143). -/
def MapsFigures (k : Config) (c : CharCode) (v : CodeUnit) : Prop :=
  ¬ SharedChar c ∧ (∀ u, entry k.ltrs u ≠ some c) ∧ entry k.figs v = some c

/-- `c` has no mapping: it is in neither table (R143, R161), which is so of every value that is no scalar value (R144). -/
def Unmapped (k : Config) (c : CharCode) : Prop := ∀ v, entry k.ltrs v ≠ some c ∧ entry k.figs v ≠ some c

/-- `c` has a mapping: it is in one of the tables (R143). -/
abbrev Mapped (k : Config) (c : CharCode) : Prop := tableHas k.ltrs c = true ∨ tableHas k.figs c = true

/-- Every shift control of a stream is immediately followed by a unit that is none (R164). -/
def ControlsLead (us : List CodeUnit) : Prop :=
  ∀ n u, us[n]? = some u → IsControl u → ∃ v, us[n + 1]? = some v ∧ ¬ IsControl v

/-! ## Invariants -/

/-- A response the block can give under well-formed parameters: `CHAR` carries a scalar value (R144) in a field of `charW` bits (R7),
`UNIT1` no shift control, `UNIT2` a shift control and then a unit that is none (R73, R164). -/
def Legal (charW : Nat) : Response → Prop
  | .char c => isScalar c = true ∧ c.toNat < 2 ^ charW
  | .unit1 u => ¬ IsControl u
  | .unit2 u v => IsControl u ∧ ¬ IsControl v
  | _ => True

/-- The parameters are well formed (R141) and every response the host has observed is legal. -/
def Inv (s : State) : Prop := s.cfg.WellFormed ∧ ∀ r ∈ s.responses, Legal s.cfg.charW r

/-- The zero machine that nothing will seed (R116, R192): every cell is 0, no command the host will issue is `LZ.SEED`, and a
reset loads zeros. -/
def ZeroForever (s : State) : Prop :=
  AllZero s.lorenz ∧ (∀ w, HostMove.command w ∈ s.hostMoves → decode s.cfg.charW w ≠ .ok .lzSeed) ∧ s.cfg.resetLoad = .zeroed

end Sys2Proof.Safety
end

