-- ==== Sys2Proof/Certificates/Slice0/Obligations.lean ====
section
/-! DEFINITION. The statements for the provers, each from a numbered rule of spec/ or derived from the sections its docstring
names. The block has no memory and no program counter, so no statement is about either. -/

open Sys2Proof Sys2Proof.Machine Sys2Proof.Safety

/-! ## Encoding -/

/-- Words written out from the encodings of R74 (spec/95_test_vectors.md V60, V62) decode to the commands they stand for. -/
def Obligations.SpecWordsDecode : Prop :=
  decode 21 0x10000000 = .ok .lzZero ∧ decode 21 0x20000000 = .ok .lzSeed ∧ decode 21 0x30000000 = .ok .lzStep ∧
  decode 21 0x40000014 = .ok (.lzEnc 0x14) ∧ decode 21 0x400000FF = .ok (.lzEnc 0xFF) ∧ decode 21 0x50000000 = .ok .lzDraw ∧
  decode 21 0x80000000 = .ok .decInit ∧ decode 21 0x9000001B = .ok (.decStep 0x1B) ∧ decode 21 0xA0000000 = .ok .encInit ∧
  decode 21 0xB0000041 = .ok (.encStep 0x41) ∧ decode 21 0xB010FFFF = .ok (.encStep 0x10FFFF)

/-- Decoding the word of any command, with any operand that fits in the character width of the block, gives the command back;
at the default width every operand fits. (Which operands fit in a narrowed `CHAR_W`, R7 and D4, is the model's choice:
assumption log, entry 6.) -/
def Obligations.DecodeOfEncode : Prop :=
  (∀ (charW : Nat) (i : Instr), OperandFits charW i → decode charW (encode i) = .ok i) ∧ ∀ i : Instr, decode 21 (encode i) = .ok i

/-- A word that decodes is the word of the command it decodes to: no bit of a word is ignored. At the default `CHAR_W` this
is R71, R72, R75; that a narrowed block (R7, D4) ignores no `arg` bit from `CHAR_W` up is the model's choice (assumption log,
entry 6). -/
def Obligations.EncodeOfDecode : Prop :=
  ∀ (charW : Nat) (w : Cmd) (i : Instr), decode charW w = .ok i → encode i = w

/-- R74: a word selects a row exactly when `w & mask == match` (the table is that of the default `CHAR_W`, 21), and the
operand is the row's field. -/
def Obligations.WordSelectsRow : Prop :=
  ∀ (w : Cmd) (i : Instr), decode 21 w = .ok i ↔ (w &&& rowMask i = rowMatch i ∧ OperandIs i w)

/-- R7, D4: narrowing `CHAR_W` takes from the words of the default width those whose character needs more bits, and nothing
else (the narrowed decoding is assumption log, entry 6). -/
def Obligations.NarrowCharactersOnly : Prop :=
  ∀ (charW : Nat) (w : Cmd) (i : Instr), decode charW w = .ok i ↔ (decode 21 w = .ok i ∧ OperandFits charW i)

/-- R75, R172: which words are reserved; a reserved word is rejected by the decoder, changes no state and is answered `NONE`;
a model that takes the spec's advice refuses it (assumption log, entry 4, says which of the two the reset model does); the
all-zero word is reserved; at the default width of a character no `ENC.STEP` word is, and one whose operand is no scalar
value is skipped. At the default `CHAR_W` the reserved words are those of R75; that a narrowed block (R7, D4) also reserves
the `ENC.STEP` words with an `arg` bit from `CHAR_W` up is the model's choice (assumption log, entry 6). -/
def Obligations.ReservedWordIsNoCommand : Prop :=
  (∀ (charW : Nat) (w : Cmd), IsReserved charW w ↔ ∃ e, decode charW w = .error e) ∧
  (∀ (s : State) (w : Cmd) (rest : List HostMove), s.hostMoves = .command w :: rest → IsReserved s.cfg.charW w →
    (s.cfg.reservedWords = .ignore →
      ∃ t, step s = .next t ∧ t.responses = s.responses ++ [.none] ∧ t.hostMoves = rest ∧ SameWheels s t ∧ SameFlags s t ∧
        SameRandom s t ∧ t.cfg = s.cfg) ∧
    (s.cfg.reservedWords = .refuse → step s = .refused (.reservedWord w))) ∧
  (∀ charW, IsReserved charW 0) ∧
  (∀ c : CharCode, ¬ IsReserved 21 (encode (.encStep c))) ∧
  (∀ (s : State) (c : CharCode), (0xD800 ≤ c.toNat ∧ c.toNat ≤ 0xDFFF) ∨ 0x10FFFF < c.toNat →
    ∃ t, exec (.encStep c) s = .next t ∧ SameWheels s t ∧ SameFlags s t ∧ SameRandom s t ∧ Answers s t .none)

/-! ## The step -/

/-- R70: when the host's next word decodes to a command, the step is that command carried out, the word being taken off the
host's moves. In a block with a narrowed `CHAR_W` the decoding is the model's choice (assumption log, entry 6). -/
def Obligations.StepRunsDecodedCommand : Prop :=
  ∀ (s : State) (w : Cmd) (rest : List HostMove) (i : Instr), s.hostMoves = .command w :: rest → decode s.cfg.charW w = .ok i →
    step s = exec i { s with hostMoves := rest }

/-- A table word whose operand fits in the character width of the block, presented to it, is what the very next step runs
(assumption log, entry 2: the host's presenting a word is the model's form of R70). Which operands fit in a narrowed `CHAR_W`
is the model's choice (assumption log, entry 6). -/
def Obligations.PresentedWordRunsNext : Prop :=
  ∀ (s : State) (nbits w : Nat) (i : Instr), decodeTableWord nbits w = some i → OperandFits s.cfg.charW i →
    step (s.withFetchWord nbits w) = exec i s

/-- R191: with no move of the host the block waits; that a waiting step answers the same state is the model's (assumption
log, entry 8). -/
def Obligations.WaitsForTheHost : Prop := ∀ s : State, s.hostMoves = [] → step s = .next s

/-- R190: the reset with `RESET_LOAD` at its default: every cell and head 0, both flags 0, whatever the state was; no
response; and it is equivalent to `LZ.ZERO`, `DEC.INIT`, `ENC.INIT`. -/
def Obligations.HostResetClears : Prop :=
  ∀ (s : State) (rest : List HostMove), s.hostMoves = .reset :: rest → s.cfg.resetLoad = .zeroed →
    ∃ t, step s = .next t ∧ AllZero t.lorenz ∧ (∀ w, (t.lorenz.wheel w).head.val = 0) ∧ t.fsDec = false ∧ t.fsEnc = false ∧
      t.responses = s.responses ∧ t.hostMoves = rest ∧ SameRandom s t ∧ t.cfg = s.cfg ∧
      ∃ u, runSteps 3 { s with hostMoves := commandMoves [.lzZero, .decInit, .encInit] ++ rest } = .next u ∧
        u.lorenz = t.lorenz ∧ u.fsDec = t.fsDec ∧ u.fsEnc = t.fsEnc ∧ u.hostMoves = t.hostMoves

/-- The reset with `RESET_LOAD` = the random constructor (R7, R190, D12): the wheels are loaded from a sample of `RND`,
stated by the host or free (U8; assumption log, entries 3 and 9), both flags are 0, there is no response. -/
def Obligations.HostResetSeeds : Prop :=
  ∀ (s : State) (rest : List HostMove), s.hostMoves = .reset :: rest → s.cfg.resetLoad = .random →
    ∃ (t : State) (r : Seed), step s = .next t ∧
      (∀ w n, n < w.len → (t.lorenz.wheel w).cells.getLsbD n = r.getLsbD (seedBase w + n)) ∧
      (∀ w, (t.lorenz.wheel w).head.val = 0) ∧ t.fsDec = false ∧ t.fsEnc = false ∧
      t.responses = s.responses ∧ t.hostMoves = rest ∧ t.cfg = s.cfg ∧
      (∀ r' more, s.seeds = r' :: more → r = r' ∧ t.seeds = more ∧ t.draws = s.draws) ∧
      (s.seeds = [] → r = Config.freeSeed s.draws ∧ t.seeds = [] ∧ t.draws = s.draws + 1)

/-- R37, column "after reset": every cell and head 0, both flags 0. -/
def Obligations.ResetStateValues : Prop :=
  (∀ w n, n < w.len → (State.reset.lorenz.wheel w).cells.getLsbD n = false) ∧
  (∀ w, (State.reset.lorenz.wheel w).head.val = 0) ∧ State.reset.fsDec = false ∧ State.reset.fsEnc = false

/-- R170, R172: no operation is fatal: where reserved words follow the block (assumption log, entry 4), every step answers a
next state. -/
def Obligations.NoStepIsFatal : Prop :=
  ∀ s : State, s.cfg.reservedWords = .ignore → ∃ t, step s = .next t

/-! ## The Lorenz Machine -/

/-- `BASE[w]` is the sum of the lengths of the wheels before `w`, and `BASE[l] + 23 = 501`: the last sentence of R22, which
the spec marks as its own inference from the lengths. -/
def Obligations.BasesAreLengthSums : Prop :=
  (∀ n w, WheelName.all[n]? = some w → seedBase w = ((WheelName.all.take n).map WheelName.len).sum) ∧
  seedBase .l + WheelName.len .l = 501

/-- R116: `LZ.ZERO` makes every cell and head 0 and leaves the codec flags. -/
def Obligations.LzZeroClearsWheels : Prop :=
  ∀ s : State, ∃ t, exec .lzZero s = .next t ∧
    (∀ w n, n < w.len → (t.lorenz.wheel w).cells.getLsbD n = false) ∧ (∀ w, (t.lorenz.wheel w).head.val = 0) ∧
    SameFlags s t ∧ SameRandom s t ∧ Answers s t .none

/-- R117: `LZ.SEED` samples `RND` once, loads cell `n` of wheel `w` from bit `BASE[w] + n`, and makes every head 0; `RND` is
what the host presents, else a free draw (U8; assumption log, entry 3). -/
def Obligations.LzSeedLoadsRnd : Prop :=
  ∀ s : State, ∃ (t : State) (r : Seed), exec .lzSeed s = .next t ∧
    (∀ w n, n < w.len → (t.lorenz.wheel w).cells.getLsbD n = r.getLsbD (seedBase w + n)) ∧
    (∀ w, (t.lorenz.wheel w).head.val = 0) ∧
    (∀ w n, n < w.len → (t.lorenz.wheel w).asArray[n]? = some (r.getLsbD (seedBase w + n))) ∧
    SameFlags s t ∧ Answers s t .none ∧
    (∀ r' more, s.seeds = r' :: more → r = r' ∧ t.seeds = more ∧ t.draws = s.draws) ∧
    (s.seeds = [] → r = Config.freeSeed s.draws ∧ t.seeds = [] ∧ t.draws = s.draws + 1)

/-- R117: the 501 bits are used once per wheel element: every machine with heads 0 is what exactly one value of `RND` gives.
-/
def Obligations.SeedBitsUsedOnce : Prop :=
  ∀ (s : State) (m : Lorenz) (more : List Seed), (∀ w, (m.wheel w).head.val = 0) →
    ∃! r : Seed, ∃ t, exec .lzSeed { s with seeds := r :: more } = .next t ∧ t.lorenz = m

/-- R118: `LZ.STEP` advances Psi and `f` always, `g` if the head of `f` is 1, Chi if both Mu heads are 1, all conditions read
before any Mu wheel moves; no cell changes, no flag changes. (Said at once for the twelve heads, the form that the spec's
R119 infers from R118.) -/
def Obligations.LzStepAdvancesHeads : Prop :=
  ∀ s : State, ∃ t, exec .lzStep s = .next t ∧
    (∀ w, (t.lorenz.wheel w).cells = (s.lorenz.wheel w).cells) ∧
    (∀ w, (t.lorenz.wheel w).head.val =
      ((s.lorenz.wheel w).head.val + advance (cellAhead s.lorenz .f 0) (cellAhead s.lorenz .g 0) w) % w.len) ∧
    SameFlags s t ∧ SameRandom s t ∧ Answers s t .none

/-- R118 corner case v: if `f`'s cells are all 0, `g` and Chi never move, while Psi and `f` move on every tick. -/
def Obligations.StoppedMotorHoldsChi : Prop :=
  ∀ (k : Nat) (s : State) (rest : List HostMove), s.hostMoves = commandMoves (List.replicate k .lzStep) ++ rest →
    s.lorenz.mu.f.cells = 0 →
    ∃ t, runSteps k s = .next t ∧ t.lorenz.mu.g = s.lorenz.mu.g ∧ t.lorenz.chi = s.lorenz.chi ∧
      (∀ w, w ∈ [WheelName.a, .b, .c, .d, .e, .f] →
        (t.lorenz.wheel w).head.val = ((s.lorenz.wheel w).head.val + k) % w.len) ∧
      (∀ w, (t.lorenz.wheel w).cells = (s.lorenz.wheel w).cells)

/-- R120, R121: `LZ.ENC b` answers `b ^ chi.read_all() ^ psi.read_all()`, each `read_all` being its packing applied to the
five head bits of its bank (R107); no state is written. -/
def Obligations.LzEncXorsKeystream : Prop :=
  ∀ (s : State) (b : Byte), ∃ (t : State) (x y : Byte),
    exec (.lzEnc b) s = .next t ∧
    s.cfg.packPsi.toList[headNumber s.lorenz [.a, .b, .c, .d, .e]]? = some x ∧
    s.cfg.packChi.toList[headNumber s.lorenz [.h, .i, .j, .k, .l]]? = some y ∧
    SameWheels s t ∧ SameFlags s t ∧ SameRandom s t ∧ Answers s t (.byte (b ^^^ y ^^^ x))

/-- What the spec infers from R107 and R120 (R120, corner case i): with the default packing bit `i` of the answer is bit `i`
of the operand xor the two heads at bank position `i`, and bits 7:5 pass through. -/
def Obligations.DefaultPackingBits : Prop :=
  ∀ (s : State) (b : Byte), s.cfg.packPsi = defaultPack → s.cfg.packChi = defaultPack →
    ∃ (t : State) (y : Byte), exec (.lzEnc b) s = .next t ∧ Answers s t (.byte y) ∧
      (∀ n w w', [WheelName.a, .b, .c, .d, .e][n]? = some w → [WheelName.h, .i, .j, .k, .l][n]? = some w' →
        y.getLsbD n = ((b.getLsbD n ^^ cellAhead s.lorenz w 0) ^^ cellAhead s.lorenz w' 0)) ∧
      (∀ n, 5 ≤ n → y.getLsbD n = b.getLsbD n) ∧
      (b.toNat ≤ 0x1F → y.toNat ≤ 0x1F)

/-- Enciphering twice in one machine state gives the byte back, for every packing: R122, which the spec infers from R120 and
R57. -/
def Obligations.EncIsSelfInverse : Prop :=
  ∀ (s : State) (b : Byte), ∃ (t u : State) (y : Byte),
    exec (.lzEnc b) s = .next t ∧ Answers s t (.byte y) ∧ SameWheels s t ∧
    exec (.lzEnc y) t = .next u ∧ Answers t u (.byte b) ∧ SameWheels s u

/-- R57: `LZ.ENC` and `LZ.DRAW` issued any number of times change no state and give the same response each time. -/
def Obligations.ReadsArePure : Prop :=
  ∀ (s : State) (i : Instr), ((∃ b, i = .lzEnc b) ∨ i = .lzDraw) →
    ∃ r, ∀ (k : Nat) (rest : List HostMove),
      runSteps k { s with hostMoves := commandMoves (List.replicate k i) ++ rest } =
        .next { s with hostMoves := rest, responses := s.responses ++ List.replicate k r }

/-- R123, which the spec infers from R118 and R122 (the presented seeds are assumption log, entry 3): two machines
constructed alike (both zeroed, or both seeded with the same `RND`), with the same packings, the second deciphering what the
first enciphered, one `LZ.STEP` per byte: the second answers the plaintext, and both end in the same machine state. -/
def Obligations.LockstepRoundTrip : Prop :=
  ∀ (s₁ : State) (i : Instr) (xs : List Byte) (rest₁ : List HostMove),
    s₁.hostMoves = commandMoves (i :: xs.flatMap lzCrypt) ++ rest₁ →
    (i = .lzZero ∨ (i = .lzSeed ∧ s₁.seeds ≠ [])) →
    ∃ (t₁ : State) (ys : List Byte),
      runSteps (1 + 2 * xs.length) s₁ = .next t₁ ∧ ys.length = xs.length ∧
      t₁.responses = s₁.responses ++ Response.none :: ys.flatMap (fun y => [Response.byte y, Response.none]) ∧
      ∀ (s₂ : State) (rest₂ : List HostMove),
        s₂.cfg.packPsi = s₁.cfg.packPsi → s₂.cfg.packChi = s₁.cfg.packChi →
        (i = .lzSeed → s₂.seeds.head? = s₁.seeds.head?) →
        s₂.hostMoves = commandMoves (i :: ys.flatMap lzCrypt) ++ rest₂ →
        ∃ t₂, runSteps (1 + 2 * xs.length) s₂ = .next t₂ ∧
          t₂.responses = s₂.responses ++ Response.none :: xs.flatMap (fun x => [Response.byte x, Response.none]) ∧
          t₂.lorenz = t₁.lorenz

/-- The all-zero machine under the default packing enciphers every byte to itself (R192, and the spec's inference in the
corner cases of R116). -/
def Obligations.ZeroMachineKeystream : Prop :=
  ∀ (s : State) (b : Byte), AllZero s.lorenz → s.cfg.packPsi = defaultPack → s.cfg.packChi = defaultPack →
    ∃ t, exec (.lzEnc b) s = .next t ∧ SameWheels s t ∧ Answers s t (.byte b)

/-- What the spec infers from the lengths (R106, corner cases): all five Psi wheels are back together exactly after multiples
of 43·47·51·53·59 Psi steps, all five Chi wheels after multiples of 41·31·29·26·23 Chi steps. -/
def Obligations.BanksRealign : Prop :=
  (∀ (p : Psi) (k : Nat), Psi.stepAll^[k] p = p ↔ 43 * 47 * 51 * 53 * 59 ∣ k) ∧
  (∀ (x : Chi) (k : Nat), Chi.stepAll^[k] x = x ↔ 41 * 31 * 29 * 26 * 23 ∣ k)

/-! ## The wheel -/

/-- R95, which the spec infers from R92 and R94: after `k` steps `as_array` is the old one rotated by `k`, a permutation of
it. -/
def Obligations.StepsRotateTheArray : Prop :=
  ∀ (n : Nat) (x : Wheel n) (k : Nat),
    (∀ j, j < n → (Wheel.stepClockwise^[k] x).asArray[j]? = x.asArray[(j + k) % n]?) ∧
    ((Wheel.stepClockwise^[k] x).asArray).Perm x.asArray

/-- R96 and R97, which the spec infers from R92 to R94: `read_head` after `k` steps is element `k mod N` of the initial
`as_array`, and `N` steps are the identity. -/
def Obligations.HeadTracksRotation : Prop :=
  ∀ (n : Nat) (x : Wheel n),
    (∀ k, some (Wheel.stepClockwise^[k] x).readHead = x.asArray[k % n]?) ∧
    (Wheel.stepClockwise^[n] x).asArray = x.asArray

/-- R21, in the sentence the spec infers from R92 to R94: two wheels have equal `as_array` exactly when no number of steps
makes their heads read differently. -/
def Obligations.ArrayIsWhatIsObservable : Prop :=
  ∀ (n : Nat) (x y : Wheel n),
    x.asArray = y.asArray ↔ ∀ k, (Wheel.stepClockwise^[k] x).readHead = (Wheel.stepClockwise^[k] y).readHead

/-- R35, which the spec infers from R34 and R92 to R94: the split front/rear wheel refines the wheel: built from the same
cells it has the same `as_array` after every number of steps, the same head, a front that is never empty and no element lost.
-/
def Obligations.SplitWheelRefines : Prop :=
  ∀ (n : Nat) [NeZero n] (cells : BitVec n) (k : Nat),
    let x : Wheel n := Wheel.stepClockwise^[k] { cells := cells, head := 0 }
    let y : SplitWheel := SplitWheel.stepClockwise^[k] (SplitWheel.ofCells ((List.range n).map cells.getLsbD))
    y.asArray = x.asArray ∧ y.readHead = some x.readHead ∧ y.front ≠ [] ∧ y.front.length + y.rear.length = n

/-- R34, and the sentence of R21 the spec infers from R92 to R94: states that differ only in the representation of the wheels
(equal `as_array`, perhaps other cells and heads) give equal responses for ever. The two stand for one block in two
representations, so their free draws of `RND` are one and the same (assumption log, entry 15). -/
def Obligations.RepresentationIsInvisible : Prop :=
  ∀ (k : Nat) (s₁ s₂ t₁ : State), ObsEq s₁ s₂ → runSteps k s₁ = .next t₁ →
    ∃ t₂, runSteps k s₂ = .next t₂ ∧ ObsEq t₁ t₂

/-! ## The snapshot -/

/-- R130, R131, R132, R136: slot `9p + q` of the snapshot is element `8 - q` of the segment's wheel where `p` is even (the
mirrored segments) and element `q` where it is odd; no state is written. (The closed form the spec infers in R133.) -/
def Obligations.LzDrawClosedForm : Prop :=
  ∀ s : State, ∃ (t : State) (buf : Snapshot), exec .lzDraw s = .next t ∧
    (∀ p q, p ≤ 11 → q ≤ 8 →
      buf.getLsbD (9 * p + q) =
        if p % 2 = 0 then cellAhead s.lorenz (segmentWheel s.cfg.drawSeg11 p) (8 - q)
        else cellAhead s.lorenz (segmentWheel s.cfg.drawSeg11 p) q) ∧
    SameWheels s t ∧ SameFlags s t ∧ SameRandom s t ∧ Answers s t (.snap buf)

/-- R135, which the spec infers from R133: the snapshot of an all-zero machine is all false, for both values of
`DRAW_SEG11_SRC` (its length, 108, is its type). -/
def Obligations.ZeroMachineDrawsNothing : Prop :=
  ∀ s : State, AllZero s.lorenz → ∃ t, exec .lzDraw s = .next t ∧ Answers s t (.snap 0)

/-- R130 corner cases: only the nine cells from the head on of each wheel are visible to `LZ.DRAW`. -/
def Obligations.DrawSeesNineCells : Prop :=
  ∀ s₁ s₂ : State, s₁.cfg.drawSeg11 = s₂.cfg.drawSeg11 →
    (∀ w j, j < 9 → cellAhead s₁.lorenz w j = cellAhead s₂.lorenz w j) →
    ∃ (t₁ t₂ : State) (r : Response), exec .lzDraw s₁ = .next t₁ ∧ exec .lzDraw s₂ = .next t₂ ∧
      Answers s₁ t₁ r ∧ Answers s₂ t₂ r

/-! ## The codec -/

/-- R150: `DEC.INIT` makes `FS_DEC` 0, touches neither `FS_ENC` nor a wheel, and is idempotent. -/
def Obligations.DecInitClearsFlag : Prop :=
  ∀ s : State, ∃ t, exec .decInit s = .next t ∧ t.fsDec = false ∧ t.fsEnc = s.fsEnc ∧ SameWheels s t ∧ SameRandom s t ∧
    Answers s t .none ∧ exec .decInit t = .next (t.respond .none)

/-- R151: the four cases of `DEC.STEP`, for any tables; with well-formed tables the shared codes answer their character and
leave the state; with the default tables `NONE` is the answer to the two controls and to 0x14 in figures, and to nothing
else. -/
def Obligations.DecStepTransition : Prop :=
  ∀ (s : State) (v : CodeUnit), ∃ (t : State) (r : Response), exec (.decStep v) s = .next t ∧ Answers s t r ∧
    t.fsEnc = s.fsEnc ∧ SameWheels s t ∧ SameRandom s t ∧
    (v = 0x1B#5 → t.fsDec = true ∧ r = .none) ∧
    (v = 0x1F#5 → t.fsDec = false ∧ r = .none) ∧
    (v ≠ 0x1B#5 → v ≠ 0x1F#5 → t.fsDec = s.fsDec ∧
      (s.fsDec = true → r = match entry s.cfg.figs v with | some c => .char c | none => .none) ∧
      (s.fsDec = false → r = match entry s.cfg.ltrs v with | some c => .char c | none => .none)) ∧
    (s.cfg.WellFormed → ∀ c, MapsShared c v → r = .char c ∧ t.fsDec = s.fsDec) ∧
    (s.cfg.ltrs = defaultLtrs → s.cfg.figs = defaultFigs →
      (r = .none ↔ v = 0x1B#5 ∨ v = 0x1F#5 ∨ (v = 0x14#5 ∧ s.fsDec = true)))

/-- R140, R151 corner case ii: with well-formed tables the four shared codes decode to null, newline, space and carriage
return in either state and do not change it. -/
def Obligations.SharedCodesDecodeAlike : Prop :=
  ∀ (s : State) (c : CharCode) (v : CodeUnit), s.cfg.WellFormed → MapsShared c v →
    ∃ t, exec (.decStep v) s = .next t ∧ t.fsDec = s.fsDec ∧ Answers s t (.char c)

/-- R160: `ENC.INIT` makes `FS_ENC` 0, emits no unit, touches neither `FS_DEC` nor a wheel, and is idempotent. -/
def Obligations.EncInitClearsFlag : Prop :=
  ∀ s : State, ∃ t, exec .encInit s = .next t ∧ t.fsEnc = false ∧ t.fsDec = s.fsDec ∧ SameWheels s t ∧ SameRandom s t ∧
    Answers s t .none ∧ exec .encInit t = .next (t.respond .none)

/-- R161: the cases of `ENC.STEP`, for any well-formed tables; a value that is no scalar value is skipped; the controls
appear only first in a pair; with the default tables a lower-case letter is skipped. -/
def Obligations.EncStepTransition : Prop :=
  ∀ (s : State) (c : CharCode), s.cfg.WellFormed →
    ∃ (t : State) (r : Response), exec (.encStep c) s = .next t ∧ Answers s t r ∧
      t.fsDec = s.fsDec ∧ SameWheels s t ∧ SameRandom s t ∧
      (Unmapped s.cfg c → r = .none ∧ t.fsEnc = s.fsEnc) ∧
      (∀ v, MapsShared c v → r = .unit1 v ∧ t.fsEnc = s.fsEnc) ∧
      (∀ v, MapsLetters s.cfg c v → r = (if s.fsEnc then .unit2 0x1F v else .unit1 v) ∧ t.fsEnc = false) ∧
      (∀ v, MapsFigures s.cfg c v → r = (if s.fsEnc then .unit1 v else .unit2 0x1B v) ∧ t.fsEnc = true) ∧
      ((0xD800 ≤ c.toNat ∧ c.toNat ≤ 0xDFFF) ∨ 0x10FFFF < c.toNat → r = .none ∧ t.fsEnc = s.fsEnc) ∧
      (∀ v, r = .unit1 v → ¬ IsControl v) ∧ (∀ u v, r = .unit2 u v → IsControl u ∧ ¬ IsControl v) ∧
      (s.cfg.ltrs = defaultLtrs → s.cfg.figs = defaultFigs → 0x61 ≤ c.toNat → c.toNat ≤ 0x7A →
        r = .none ∧ t.fsEnc = s.fsEnc)

/-- R141, R143: with well-formed tables each character is in exactly one of the cases unmapped, shared, letters, figures; its
code is unique and is no shift control. -/
def Obligations.CharacterClassesExclusive : Prop :=
  ∀ (k : Config) (c : CharCode), k.WellFormed →
    (Unmapped k c ∧ (∀ v, ¬ MapsShared c v ∧ ¬ MapsLetters k c v ∧ ¬ MapsFigures k c v)) ∨
    (¬ Unmapped k c ∧ ∃ v, ¬ IsControl v ∧
      ((MapsShared c v ∧ ∀ u, (MapsShared c u → u = v) ∧ ¬ MapsLetters k c u ∧ ¬ MapsFigures k c u) ∨
       (MapsLetters k c v ∧ ∀ u, ¬ MapsShared c u ∧ (MapsLetters k c u → u = v) ∧ ¬ MapsFigures k c u) ∨
       (MapsFigures k c v ∧ ∀ u, ¬ MapsShared c u ∧ ¬ MapsLetters k c u ∧ (MapsFigures k c u → u = v))))

/-- R144, R161 corner case iii: a value that is no Unicode scalar value is skipped, whatever the tables hold. -/
def Obligations.NonScalarIsSkipped : Prop :=
  ∀ (s : State) (c : CharCode), (0xD800 ≤ c.toNat ∧ c.toNat ≤ 0xDFFF) ∨ 0x10FFFF < c.toNat →
    ∃ t, exec (.encStep c) s = .next t ∧ t.fsEnc = s.fsEnc ∧ t.fsDec = s.fsDec ∧ SameWheels s t ∧ Answers s t .none

/-- R163, which the spec infers from R151, R161 and R141: for any well-formed tables and any string of characters of the
block (at the default `CHAR_W` any string), encoding it and decoding the flat stream with a Decoder whose flag equals the
Encoder's at the start (a fresh pair, for one) yields the string with its unmapped characters deleted, and the two flags end
equal. That a narrowed block has no command for wider characters is the model's choice (assumption log, entry 6). -/
def Obligations.CodecRoundTrip : Prop :=
  ∀ (s : State) (cs : List CharCode) (rest : List HostMove), s.cfg.WellFormed → (∀ c ∈ cs, c.toNat < 2 ^ s.cfg.charW.val) →
    s.hostMoves = commandMoves (encStr cs) ++ rest →
    ∃ (t : State) (rs : List Response),
      runSteps cs.length s = .next t ∧ t.responses = s.responses ++ rs ∧
      ∀ (s' : State) (rest' : List HostMove), s'.cfg.ltrs = s.cfg.ltrs → s'.cfg.figs = s.cfg.figs → s'.fsDec = s.fsEnc →
        s'.hostMoves = commandMoves (decSeq (flatUnits rs)) ++ rest' →
        ∃ (t' : State) (rs' : List Response),
          runSteps (flatUnits rs).length s' = .next t' ∧ t'.responses = s'.responses ++ rs' ∧
          decodedChars rs' = cs.filter (fun c => decide (Mapped s.cfg c)) ∧ t'.fsDec = t.fsEnc

/-- R164, which the spec infers from R161: the Encoder emits a control only when its state must change, and in the flat
stream of a string every control is immediately followed by a unit that is no control (so none ends the stream). The strings
are of characters that fit in `CHAR_W` (assumption log, entry 6), at the default any. -/
def Obligations.EncoderControlsLead : Prop :=
  (∀ (s t : State) (c : CharCode) (u v : CodeUnit), s.cfg.WellFormed → exec (.encStep c) s = .next t →
    t.responses = s.responses ++ [.unit2 u v] →
    (u = 0x1B#5 ∧ s.fsEnc = false ∨ u = 0x1F#5 ∧ s.fsEnc = true) ∧ t.fsEnc = !s.fsEnc ∧ ¬ IsControl v) ∧
  (∀ (s : State) (cs : List CharCode) (rest : List HostMove), s.cfg.WellFormed → (∀ c ∈ cs, c.toNat < 2 ^ s.cfg.charW.val) →
    s.hostMoves = commandMoves (encStr cs) ++ rest →
    ∃ (t : State) (rs : List Response), runSteps cs.length s = .next t ∧ t.responses = s.responses ++ rs ∧
      ControlsLead (flatUnits rs))

/-- R142: the default tables are well formed (R141), with 30 and 29 defined codes and 55 distinct characters; `FIGS[0x14]` is
undefined. -/
def Obligations.DefaultTablesWellFormed : Prop :=
  defaultConfig.WellFormed ∧
  (allCodes.filterMap (entry defaultLtrs)).length = 30 ∧ (allCodes.filterMap (entry defaultFigs)).length = 29 ∧
  (allCodes.filterMap (entry defaultLtrs) ++ allCodes.filterMap (entry defaultFigs)).dedup.length = 55 ∧
  entry defaultFigs 0x14 = none

/-! ## The whole machine -/

/-- R73, R170: every command, in every state, gives a next state and exactly one response, of a kind R73 lists for it. -/
def Obligations.EveryCommandAnswersOnce : Prop :=
  ∀ (i : Instr) (s : State), ∃ (t : State) (r : Response), exec i s = .next t ∧ Answers s t r ∧ kindOf r ∈ kindsOf i

/-- Every step keeps the invariant: the parameters are well formed (R7, R141) and every response is legal (R7, R73, R144, and
what the spec infers in R164). That the tables and `R_CHAR` fit in a narrowed `CHAR_W` is the model's choice (assumption log,
entry 6). -/
def Obligations.StepKeepsInv : Prop := ∀ s t : State, Inv s → step s = .next t → Inv t

/-- The invariant holds after reset. -/
def Obligations.ResetHasInv : Prop := Inv State.reset

/-- R192, and the inference of the spec in the corner cases of R116: a zero machine that nothing will seed stays one. -/
def Obligations.StepKeepsZeroForever : Prop := ∀ s t : State, ZeroForever s → step s = .next t → ZeroForever t

/-- The machine after reset is a zero machine that nothing will seed: so is it with any commands but `LZ.SEED` before it. -/
def Obligations.ResetIsZeroForever : Prop :=
  ∀ is : List Instr, .lzSeed ∉ is → ZeroForever { State.reset with hostMoves := commandMoves is }

/-- R23: cells are rewritten only by constructing the machine anew (`LZ.ZERO`, `LZ.SEED`, reset); a head changes only so or
by `LZ.STEP`. -/
def Obligations.CellsChangeOnlyByConstruction : Prop :=
  ∀ (s t : State) (w : WheelName), step s = .next t →
    ((t.lorenz.wheel w).cells ≠ (s.lorenz.wheel w).cells →
      ∃ rest, s.hostMoves = .reset :: rest ∨ s.hostMoves = .command (encode .lzZero) :: rest ∨
        s.hostMoves = .command (encode .lzSeed) :: rest) ∧
    ((t.lorenz.wheel w).head ≠ (s.lorenz.wheel w).head →
      ∃ rest, s.hostMoves = .reset :: rest ∨ s.hostMoves = .command (encode .lzZero) :: rest ∨
        s.hostMoves = .command (encode .lzSeed) :: rest ∨ s.hostMoves = .command (encode .lzStep) :: rest)

/-- R26, R27: who writes the two shift flags. `FS_DEC`: `DEC.STEP 0x1B` and `0x1F`, `DEC.INIT`, reset. `FS_ENC`: `ENC.STEP`
when it emits a pair, `ENC.INIT`, reset. -/
def Obligations.FlagsChangeOnlyByTheirCodec : Prop :=
  ∀ s t : State, step s = .next t →
    (t.fsDec ≠ s.fsDec → ∃ rest, s.hostMoves = .reset :: rest ∨ s.hostMoves = .command (encode .decInit) :: rest ∨
      s.hostMoves = .command (encode (.decStep 0x1B)) :: rest ∨ s.hostMoves = .command (encode (.decStep 0x1F)) :: rest) ∧
    (t.fsEnc ≠ s.fsEnc → ∃ rest, s.hostMoves = .reset :: rest ∨ s.hostMoves = .command (encode .encInit) :: rest ∨
      ∃ c u v, s.hostMoves = .command (encode (.encStep c)) :: rest ∧ t.responses = s.responses ++ [.unit2 u v])

/-- R38: no step changes the parameters (that they stand in the state is the model's choice: assumption log, entry 1). -/
def Obligations.ParametersNeverChange : Prop := ∀ s t : State, step s = .next t → t.cfg = s.cfg

/-- R28: no command reads one flag and writes the other: a Decoder command runs alike whatever `FS_ENC` is, an Encoder
command whatever `FS_DEC` is, and a Lorenz command whatever both are. The two runs are of one
block, with one draw of `RND` (assumption log, entry 15). -/
def Obligations.FlagsAreIndependent : Prop :=
  ∀ (i : Instr) (s : State) (b : Bool), ∃ t, exec i s = .next t ∧
    ((i = .decInit ∨ ∃ v, i = .decStep v) → exec i (s.setFsEnc b) = .next (t.setFsEnc b)) ∧
    ((i = .encInit ∨ ∃ c, i = .encStep c) → exec i (s.setFsDec b) = .next (t.setFsDec b)) ∧
    ((i = .lzZero ∨ i = .lzSeed ∨ i = .lzStep ∨ (∃ x, i = .lzEnc x) ∨ i = .lzDraw) →
      exec i (s.setFsEnc b) = .next (t.setFsEnc b) ∧ exec i (s.setFsDec b) = .next (t.setFsDec b))

/-- R24, R25: the codec commands read and write no wheel state. -/
def Obligations.CodecIgnoresWheels : Prop :=
  ∀ (i : Instr) (s : State) (m : Lorenz),
    (i = .decInit ∨ i = .encInit ∨ (∃ v, i = .decStep v) ∨ ∃ c, i = .encStep c) →
    ∃ t, exec i s = .next t ∧ exec i (s.setLorenz m) = .next (t.setLorenz m) ∧ SameWheels s t

/-- R24, R120 corner case iv: the Mu wheels are not read by `LZ.ENC`: machines that agree on the Psi and Chi heads encipher
alike. -/
def Obligations.EncIgnoresMu : Prop :=
  ∀ (s : State) (m : Lorenz) (b : Byte),
    (∀ w, w ≠ .f → w ≠ .g → cellAhead m w 0 = cellAhead s.lorenz w 0) →
    ∃ t, exec (.lzEnc b) s = .next t ∧ exec (.lzEnc b) (s.setLorenz m) = .next (t.setLorenz m)
end

