-- ==== Sys2Proof/Laws/Wheel.lean ====
section
/-! SUPPORT. What each wheel operation does (spec/40_wheel.md R90 to R94), said once. -/

namespace Sys2Proof.Machine

variable {n : Nat} (x : Wheel n)

@[simp] theorem newZeroed_cells (n : Nat) [NeZero n] : (newZeroed n).cells = 0#n := rfl

@[simp] theorem newZeroed_head (n : Nat) [NeZero n] : (newZeroed n).head = 0 := rfl

@[simp] theorem newRandom_head (n : Nat) [NeZero n] (r : Seed) (b : Nat) : (newRandom n r b).head = 0 := rfl

theorem newRandom_cell (n : Nat) [NeZero n] (r : Seed) (b k : Nat) (hk : k < n) :
    (newRandom n r b).cells.getLsbD k = r.getLsbD (b + k) := by
  simp [newRandom, hk]

@[simp] theorem Wheel.stepClockwise_cells : x.stepClockwise.cells = x.cells := rfl

theorem Wheel.stepClockwise_head : (x.stepClockwise.head : Nat) = (x.head + 1) % n := rfl

@[simp] theorem Wheel.iterate_stepClockwise_cells (k : Nat) : (Wheel.stepClockwise^[k] x).cells = x.cells := by
  induction k generalizing x with
  | zero => rfl
  | succ k ih => rw [Function.iterate_succ_apply, ih, stepClockwise_cells]

theorem Wheel.iterate_stepClockwise_head (k : Nat) : ((Wheel.stepClockwise^[k] x).head : Nat) = (x.head + k) % n := by
  induction k generalizing x with
  | zero => simp [Nat.mod_eq_of_lt x.head.isLt]
  | succ k ih =>
    rw [Function.iterate_succ_apply, ih, stepClockwise_head, Nat.mod_add_mod]
    congr 1
    omega

theorem Wheel.at_eq (j : Nat) : x.at j = x.cells.getLsbD ((x.head + j) % n) := rfl

theorem Wheel.readHead_eq_at_zero : x.readHead = x.at 0 := by
  simp [readHead, Wheel.at, Nat.mod_eq_of_lt x.head.isLt]

@[simp] theorem Wheel.asArray_length : x.asArray.length = n := by simp [asArray]

theorem Wheel.asArray_getElem? (j : Nat) (hj : j < n) : x.asArray[j]? = some (x.at j) := by
  simp [asArray, hj]

end Sys2Proof.Machine
end

