-- ==== Sys2Proof/Laws/Banks.lean ====
section
/-! SUPPORT. What each operation of the machine does to each wheel (spec/41_wheel_banks.md, spec/42_lorenz_step_encode.md,
spec/43_lorenz_draw.md), said once. -/

namespace Sys2Proof.Machine

/-- A machine is its twelve wheels. -/
theorem Lorenz.ext_wheel {m n : Lorenz} (h : ∀ w, m.wheel w = n.wheel w) : m = n := by
  obtain ⟨⟨a, b, c, d, e⟩, ⟨f, g⟩, ⟨h1, i, j, k, l⟩⟩ := m
  obtain ⟨⟨a', b', c', d', e'⟩, ⟨f', g'⟩, ⟨h1', i', j', k', l'⟩⟩ := n
  have := h .a; have := h .b; have := h .c; have := h .d; have := h .e; have := h .f
  have := h .g; have := h .h; have := h .i; have := h .j; have := h .k; have := h .l
  simp_all [Lorenz.wheel]

theorem zeroedLorenz_cells (w : WheelName) : (zeroedLorenz.wheel w).cells = 0 := by cases w <;> rfl

theorem zeroedLorenz_head (w : WheelName) : ((zeroedLorenz.wheel w).head : Nat) = 0 := by cases w <;> rfl

theorem randomLorenz_cell (r : Seed) (w : WheelName) (k : Nat) (hk : k < w.len) :
    ((randomLorenz r).wheel w).cells.getLsbD k = r.getLsbD (baseOf w + k) := by
  match w with
  | .a => exact newRandom_cell 43 r _ k hk
  | .b => exact newRandom_cell 47 r _ k hk
  | .c => exact newRandom_cell 51 r _ k hk
  | .d => exact newRandom_cell 53 r _ k hk
  | .e => exact newRandom_cell 59 r _ k hk
  | .f => exact newRandom_cell 37 r _ k hk
  | .g => exact newRandom_cell 61 r _ k hk
  | .h => exact newRandom_cell 41 r _ k hk
  | .i => exact newRandom_cell 31 r _ k hk
  | .j => exact newRandom_cell 29 r _ k hk
  | .k => exact newRandom_cell 26 r _ k hk
  | .l => exact newRandom_cell 23 r _ k hk

theorem randomLorenz_head (r : Seed) (w : WheelName) : (((randomLorenz r).wheel w).head : Nat) = 0 := by
  cases w <;> rfl

/-- The four numbered steps of `step_machine`, as one case split on the two Mu head bits read before it (R118). -/
theorem Lorenz.stepMachine_eq (m : Lorenz) :
    m.stepMachine =
      { psi := m.psi.stepAll
        mu := { f := m.mu.f.stepClockwise, g := if m.mu.f.readHead then m.mu.g.stepClockwise else m.mu.g }
        chi := if m.mu.f.readHead && m.mu.g.readHead then m.chi.stepAll else m.chi } := by
  cases hf : m.mu.f.readHead <;> cases hg : m.mu.g.readHead <;>
    simp [stepMachine, stepPsi, stepChiIfBoth, stepGIfF, stepF, hf, hg]

/-- Whether a wheel moves on a tick that starts in machine `m` (R119). -/
def Lorenz.moves (m : Lorenz) : WheelName → Bool
  | .a | .b | .c | .d | .e | .f => true
  | .g => m.mu.f.readHead
  | .h | .i | .j | .k | .l => m.mu.f.readHead && m.mu.g.readHead

/-- What a tick does to each wheel (R119). -/
theorem Lorenz.stepMachine_wheel (m : Lorenz) (w : WheelName) :
    (m.stepMachine).wheel w = if m.moves w then (m.wheel w).stepClockwise else m.wheel w := by
  rw [stepMachine_eq]
  cases hf : m.mu.f.readHead <;> cases hg : m.mu.g.readHead <;> cases w <;> simp only [moves, hf, hg] <;> rfl

theorem bitsToNat_testBit (l : List Bool) (k : Nat) : (bitsToNat l).testBit k = l.getD k false := by
  induction l generalizing k with
  | nil => simp [bitsToNat]
  | cons b t ih =>
    cases k with
    | zero => cases b <;> simp [bitsToNat, Nat.testBit_zero]
    | succ k =>
      have : (b.toNat + 2 * bitsToNat t) / 2 = bitsToNat t := by (cases b <;> simp); omega
      simp [bitsToNat, Nat.testBit_succ, this, ih]

theorem Lorenz.draw_getLsbD (m : Lorenz) (src : Seg11Source) (k : Nat) (hk : k < 108) :
    (m.draw src).getLsbD k = (m.drawBuffer src).getD k false := by
  rw [draw, BitVec.getLsbD_ofNat, bitsToNat_testBit]
  simp [hk]

theorem Lorenz.segment_length (m : Lorenz) (w : WheelName) (s : Nat) : (m.segment w s).length = 9 := by
  have h : 9 ≤ w.len := by cases w <;> decide
  unfold segment
  split <;> simp [h]

theorem fiveBits_getLsbD (b0 b1 b2 b3 b4 : Bool) (k : Nat) :
    (fiveBits b0 b1 b2 b3 b4).getLsbD k = [b0, b1, b2, b3, b4].getD k false := by
  revert b0 b1 b2 b3 b4
  match k with
  | 0 | 1 | 2 | 3 | 4 => decide
  | k + 5 => intros; simp

theorem fiveBits_toNat (b0 b1 b2 b3 b4 : Bool) :
    (fiveBits b0 b1 b2 b3 b4).toNat = bitsToNat [b0, b1, b2, b3, b4] := by
  revert b0 b1 b2 b3 b4; decide

end Sys2Proof.Machine
end

