-- ==== Sys2Proof/Laws/Codec.lean ====
section
/-! SUPPORT. What the lookups and the codec's step functions do (spec/44_ita2_tables.md R143, spec/45_ita2_decoder.md R151,
spec/46_ita2_encoder.md R161), said once. -/

namespace Sys2Proof.Machine

theorem mem_allCodes (v : CodeUnit) : v ∈ allCodes := by
  refine List.mem_map.mpr ⟨v.toNat, List.mem_range.mpr v.isLt, ?_⟩
  simp

theorem entry_of_codeOf {t : CodeTable} {c : CharCode} {v : CodeUnit} (h : codeOf t c = some v) : entry t v = some c := by
  simpa using List.find?_some h

theorem codeOf_eq_none_iff {t : CodeTable} {c : CharCode} : codeOf t c = none ↔ ∀ v, entry t v ≠ some c := by
  simp [codeOf, mem_allCodes]

theorem sharedCodeOf_eq_some_iff {c : CharCode} {v : CodeUnit} : sharedCodeOf c = some v ↔ (v, c) ∈ sharedCodes := by
  constructor
  · intro h
    obtain ⟨p, hp, rfl⟩ := Option.map_eq_some_iff.mp h
    have h1 := List.find?_some hp
    have h2 := List.mem_of_find?_eq_some hp
    simp only [beq_iff_eq] at h1
    rw [← h1]; exact h2
  · intro h
    simp only [sharedCodes, List.mem_cons, Prod.mk.injEq, List.not_mem_nil, or_false] at h
    rcases h with ⟨rfl, rfl⟩ | ⟨rfl, rfl⟩ | ⟨rfl, rfl⟩ | ⟨rfl, rfl⟩ <;> decide

theorem sharedCodeOf_eq_none_iff {c : CharCode} : sharedCodeOf c = none ↔ isShared c = false := by
  simp only [sharedCodeOf, Option.map_eq_none_iff, List.find?_eq_none, isShared, beq_iff_eq]
  rw [← Bool.not_eq_true, List.contains_iff_mem]
  constructor
  · intro h hc
    obtain ⟨p, hp, e⟩ := List.mem_map.mp hc
    exact h p hp e
  · intro h p hp e
    exact h (List.mem_map.mpr ⟨p, hp, e⟩)

/-- Everything `ENC_MAP` can answer (R143). -/
theorem encMap_cases (k : Config) (c : CharCode) :
    (isScalar c = false ∧ encMap k c = none) ∨
    (∃ v, isScalar c = true ∧ (v, c) ∈ sharedCodes ∧ encMap k c = some (v, .shared)) ∨
    (∃ v, isScalar c = true ∧ isShared c = false ∧ entry k.ltrs v = some c ∧ encMap k c = some (v, .letters)) ∨
    (∃ v, isScalar c = true ∧ isShared c = false ∧ (∀ u, entry k.ltrs u ≠ some c) ∧ entry k.figs v = some c ∧
      encMap k c = some (v, .figures)) ∨
    (isScalar c = true ∧ isShared c = false ∧ (∀ u, entry k.ltrs u ≠ some c) ∧ (∀ u, entry k.figs u ≠ some c) ∧
      encMap k c = none) := by
  cases hs : isScalar c with
  | false => exact .inl ⟨rfl, by simp [encMap, hs]⟩
  | true =>
    cases hsh : sharedCodeOf c with
    | some v => exact .inr (.inl ⟨v, rfl, sharedCodeOf_eq_some_iff.mp hsh, by simp [encMap, hs, hsh]⟩)
    | none =>
      have hn := sharedCodeOf_eq_none_iff.mp hsh
      cases hl : codeOf k.ltrs c with
      | some v => exact .inr (.inr (.inl ⟨v, rfl, hn, entry_of_codeOf hl, by simp [encMap, hs, hsh, hl]⟩))
      | none =>
        have hl' := codeOf_eq_none_iff.mp hl
        cases hf : codeOf k.figs c with
        | some v =>
          exact .inr (.inr (.inr (.inl ⟨v, rfl, hn, hl', entry_of_codeOf hf, by simp [encMap, hs, hsh, hl, hf]⟩)))
        | none => exact .inr (.inr (.inr (.inr ⟨rfl, hn, hl', codeOf_eq_none_iff.mp hf, by simp [encMap, hs, hsh, hl, hf]⟩)))

/-- Everything the Decoder's step can do (R151). -/
theorem decodeUnit_cases (k : Config) (fs : Bool) (v : CodeUnit) :
    (v = figsCode ∧ decodeUnit k fs v = (true, .none)) ∨
    (v = ltrsCode ∧ decodeUnit k fs v = (false, .none)) ∨
    (v ≠ figsCode ∧ v ≠ ltrsCode ∧ entry (activeTable k fs) v = none ∧ decodeUnit k fs v = (fs, .none)) ∨
    (∃ c, v ≠ figsCode ∧ v ≠ ltrsCode ∧ entry (activeTable k fs) v = some c ∧ decodeUnit k fs v = (fs, .char c)) := by
  by_cases h1 : v = figsCode
  · exact .inl ⟨h1, by simp [decodeUnit, h1]⟩
  by_cases h2 : v = ltrsCode
  · refine .inr (.inl ⟨h2, ?_⟩)
    rw [decodeUnit, if_neg h1, if_pos h2]
  cases h : entry (activeTable k fs) v with
  | none => exact .inr (.inr (.inl ⟨h1, h2, rfl, by simp [decodeUnit, h1, h2, h]⟩))
  | some c => exact .inr (.inr (.inr ⟨c, h1, h2, rfl, by simp [decodeUnit, h1, h2, h]⟩))

end Sys2Proof.Machine
end

