-- ==== Sys2Proof/Laws/Decode.lean ====
section
/-! SUPPORT. The fields of a command word and the operand forms (spec/30_encoding.md R71, R72), said once. -/

namespace Sys2Proof.Machine

theorem wordOfFields_toNat (x : Fields) :
    (wordOfFields x).toNat = x.op.toNat * 2 ^ 28 + x.mbz.toNat * 2 ^ 21 + x.arg.toNat := by
  have h1 := x.mbz.isLt
  have h2 := x.arg.isLt
  rw [wordOfFields, BitVec.toNat_append, ← Nat.shiftLeft_add_eq_or_of_lt h2, BitVec.toNat_append,
    ← Nat.shiftLeft_add_eq_or_of_lt h1, Nat.shiftLeft_eq, Nat.shiftLeft_eq]
  omega

theorem fieldsOfWord_op (w : Cmd) : (fieldsOfWord w).op.toNat = w.toNat / 2 ^ 28 := by
  have := w.isLt
  simp [fieldsOfWord, Nat.shiftRight_eq_div_pow]; omega

theorem fieldsOfWord_mbz (w : Cmd) : (fieldsOfWord w).mbz.toNat = w.toNat / 2 ^ 21 % 2 ^ 7 := by
  simp [fieldsOfWord, Nat.shiftRight_eq_div_pow]

theorem fieldsOfWord_arg (w : Cmd) : (fieldsOfWord w).arg.toNat = w.toNat % 2 ^ 21 := by
  simp [fieldsOfWord]

theorem fieldsOfWord_wordOfFields (x : Fields) : fieldsOfWord (wordOfFields x) = x := by
  have h0 := x.op.isLt
  have h1 := x.mbz.isLt
  have h2 := x.arg.isLt
  have e1 : (fieldsOfWord (wordOfFields x)).op = x.op := by
    rw [← BitVec.toNat_inj, fieldsOfWord_op, wordOfFields_toNat]; omega
  have e2 : (fieldsOfWord (wordOfFields x)).mbz = x.mbz := by
    rw [← BitVec.toNat_inj, fieldsOfWord_mbz, wordOfFields_toNat]; omega
  have e3 : (fieldsOfWord (wordOfFields x)).arg = x.arg := by
    rw [← BitVec.toNat_inj, fieldsOfWord_arg, wordOfFields_toNat]; omega
  exact Fields.ext e1 e2 e3

theorem wordOfFields_fieldsOfWord (w : Cmd) : wordOfFields (fieldsOfWord w) = w := by
  rw [← BitVec.toNat_inj, wordOfFields_toNat, fieldsOfWord_op, fieldsOfWord_mbz, fieldsOfWord_arg]; omega

theorem noOperand_ok_iff (arg : BitVec 21) (i j : Instr) : noOperand arg i = .ok j ↔ arg.toNat = 0 ∧ j = i := by
  unfold noOperand
  by_cases h : arg = 0#21
  · simp only [h, if_true, Except.ok.injEq, BitVec.toNat_ofNat, Nat.zero_mod, true_and]; exact eq_comm
  · have h' : arg.toNat ≠ 0 := fun e => h (BitVec.eq_of_toNat_eq e)
    simp [h, h']

theorem byteOperand_ok_iff (arg : BitVec 21) (mk : Byte → Instr) (j : Instr) :
    byteOperand arg mk = .ok j ↔ arg.toNat < 2 ^ 8 ∧ j = mk (arg.setWidth 8) := by
  have h : arg.extractLsb' 8 13 = 0#13 ↔ arg.toNat < 2 ^ 8 := by
    have := arg.isLt
    rw [← BitVec.toNat_inj]; simp [Nat.shiftRight_eq_div_pow]; omega
  unfold byteOperand
  rw [← BitVec.setWidth_eq_extractLsb' (by omega)]
  split
  · rename_i e
    simp only [h.mp e, true_and, Except.ok.injEq]; exact eq_comm
  · rename_i e
    simp only [reduceCtorEq, false_iff, not_and]
    exact fun e' => absurd (h.mpr e') e

theorem unitOperand_ok_iff (arg : BitVec 21) (mk : CodeUnit → Instr) (j : Instr) :
    unitOperand arg mk = .ok j ↔ arg.toNat < 2 ^ 5 ∧ j = mk (arg.setWidth 5) := by
  have h : arg.extractLsb' 5 16 = 0#16 ↔ arg.toNat < 2 ^ 5 := by
    have := arg.isLt
    rw [← BitVec.toNat_inj]; simp [Nat.shiftRight_eq_div_pow]; omega
  unfold unitOperand
  rw [← BitVec.setWidth_eq_extractLsb' (by omega)]
  split
  · rename_i e
    simp only [h.mp e, true_and, Except.ok.injEq]; exact eq_comm
  · rename_i e
    simp only [reduceCtorEq, false_iff, not_and]
    exact fun e' => absurd (h.mpr e') e

theorem charOperand_ok_iff (charW : Nat) (arg : BitVec 21) (mk : CharCode → Instr) (j : Instr) :
    charOperand charW arg mk = .ok j ↔ arg.toNat < 2 ^ charW ∧ j = mk arg := by
  unfold charOperand
  split
  · rename_i h
    simp only [h, true_and, Except.ok.injEq]; exact eq_comm
  · rename_i h
    simp [h]

end Sys2Proof.Machine
end

