-- ==== Sys2Proof/Laws/State.lean ====
section
/-! SUPPORT. One lemma per field per update of the state. -/

namespace Sys2Proof.Machine

variable (s : State)

@[simp] theorem State.setLorenz_lorenz (m : Lorenz) : (s.setLorenz m).lorenz = m := rfl
@[simp] theorem State.setLorenz_fsDec (m : Lorenz) : (s.setLorenz m).fsDec = s.fsDec := rfl
@[simp] theorem State.setLorenz_fsEnc (m : Lorenz) : (s.setLorenz m).fsEnc = s.fsEnc := rfl
@[simp] theorem State.setLorenz_cfg (m : Lorenz) : (s.setLorenz m).cfg = s.cfg := rfl
@[simp] theorem State.setLorenz_hostMoves (m : Lorenz) : (s.setLorenz m).hostMoves = s.hostMoves := rfl
@[simp] theorem State.setLorenz_seeds (m : Lorenz) : (s.setLorenz m).seeds = s.seeds := rfl
@[simp] theorem State.setLorenz_draws (m : Lorenz) : (s.setLorenz m).draws = s.draws := rfl
@[simp] theorem State.setLorenz_responses (m : Lorenz) : (s.setLorenz m).responses = s.responses := rfl

@[simp] theorem State.setFsDec_lorenz (b : Bool) : (s.setFsDec b).lorenz = s.lorenz := rfl
@[simp] theorem State.setFsDec_fsDec (b : Bool) : (s.setFsDec b).fsDec = b := rfl
@[simp] theorem State.setFsDec_fsEnc (b : Bool) : (s.setFsDec b).fsEnc = s.fsEnc := rfl
@[simp] theorem State.setFsDec_cfg (b : Bool) : (s.setFsDec b).cfg = s.cfg := rfl
@[simp] theorem State.setFsDec_hostMoves (b : Bool) : (s.setFsDec b).hostMoves = s.hostMoves := rfl
@[simp] theorem State.setFsDec_seeds (b : Bool) : (s.setFsDec b).seeds = s.seeds := rfl
@[simp] theorem State.setFsDec_draws (b : Bool) : (s.setFsDec b).draws = s.draws := rfl
@[simp] theorem State.setFsDec_responses (b : Bool) : (s.setFsDec b).responses = s.responses := rfl

@[simp] theorem State.setFsEnc_lorenz (b : Bool) : (s.setFsEnc b).lorenz = s.lorenz := rfl
@[simp] theorem State.setFsEnc_fsDec (b : Bool) : (s.setFsEnc b).fsDec = s.fsDec := rfl
@[simp] theorem State.setFsEnc_fsEnc (b : Bool) : (s.setFsEnc b).fsEnc = b := rfl
@[simp] theorem State.setFsEnc_cfg (b : Bool) : (s.setFsEnc b).cfg = s.cfg := rfl
@[simp] theorem State.setFsEnc_hostMoves (b : Bool) : (s.setFsEnc b).hostMoves = s.hostMoves := rfl
@[simp] theorem State.setFsEnc_seeds (b : Bool) : (s.setFsEnc b).seeds = s.seeds := rfl
@[simp] theorem State.setFsEnc_draws (b : Bool) : (s.setFsEnc b).draws = s.draws := rfl
@[simp] theorem State.setFsEnc_responses (b : Bool) : (s.setFsEnc b).responses = s.responses := rfl

@[simp] theorem State.respond_lorenz (r : Response) : (s.respond r).lorenz = s.lorenz := rfl
@[simp] theorem State.respond_fsDec (r : Response) : (s.respond r).fsDec = s.fsDec := rfl
@[simp] theorem State.respond_fsEnc (r : Response) : (s.respond r).fsEnc = s.fsEnc := rfl
@[simp] theorem State.respond_cfg (r : Response) : (s.respond r).cfg = s.cfg := rfl
@[simp] theorem State.respond_hostMoves (r : Response) : (s.respond r).hostMoves = s.hostMoves := rfl
@[simp] theorem State.respond_seeds (r : Response) : (s.respond r).seeds = s.seeds := rfl
@[simp] theorem State.respond_draws (r : Response) : (s.respond r).draws = s.draws := rfl
@[simp] theorem State.respond_responses (r : Response) : (s.respond r).responses = s.responses ++ [r] := rfl

@[simp] theorem State.presentMove_lorenz (m : HostMove) : (s.presentMove m).lorenz = s.lorenz := rfl
@[simp] theorem State.presentMove_fsDec (m : HostMove) : (s.presentMove m).fsDec = s.fsDec := rfl
@[simp] theorem State.presentMove_fsEnc (m : HostMove) : (s.presentMove m).fsEnc = s.fsEnc := rfl
@[simp] theorem State.presentMove_cfg (m : HostMove) : (s.presentMove m).cfg = s.cfg := rfl
@[simp] theorem State.presentMove_hostMoves (m : HostMove) : (s.presentMove m).hostMoves = m :: s.hostMoves := rfl
@[simp] theorem State.presentMove_seeds (m : HostMove) : (s.presentMove m).seeds = s.seeds := rfl
@[simp] theorem State.presentMove_draws (m : HostMove) : (s.presentMove m).draws = s.draws := rfl
@[simp] theorem State.presentMove_responses (m : HostMove) : (s.presentMove m).responses = s.responses := rfl

@[simp] theorem State.rndTaken_lorenz : s.rndTaken.lorenz = s.lorenz := by
  unfold State.rndTaken; split <;> rfl
@[simp] theorem State.rndTaken_fsDec : s.rndTaken.fsDec = s.fsDec := by
  unfold State.rndTaken; split <;> rfl
@[simp] theorem State.rndTaken_fsEnc : s.rndTaken.fsEnc = s.fsEnc := by
  unfold State.rndTaken; split <;> rfl
@[simp] theorem State.rndTaken_cfg : s.rndTaken.cfg = s.cfg := by
  unfold State.rndTaken; split <;> rfl
@[simp] theorem State.rndTaken_hostMoves : s.rndTaken.hostMoves = s.hostMoves := by
  unfold State.rndTaken; split <;> rfl
@[simp] theorem State.rndTaken_responses : s.rndTaken.responses = s.responses := by
  unfold State.rndTaken; split <;> rfl

@[simp] theorem State.loadZeroed_lorenz : s.loadZeroed.lorenz = zeroedLorenz := by simp [State.loadZeroed]
@[simp] theorem State.loadZeroed_fsDec : s.loadZeroed.fsDec = s.fsDec := by simp [State.loadZeroed]
@[simp] theorem State.loadZeroed_fsEnc : s.loadZeroed.fsEnc = s.fsEnc := by simp [State.loadZeroed]
@[simp] theorem State.loadZeroed_cfg : s.loadZeroed.cfg = s.cfg := by simp [State.loadZeroed]
@[simp] theorem State.loadZeroed_hostMoves : s.loadZeroed.hostMoves = s.hostMoves := by simp [State.loadZeroed]
@[simp] theorem State.loadZeroed_responses : s.loadZeroed.responses = s.responses := by simp [State.loadZeroed]
@[simp] theorem State.loadZeroed_seeds : s.loadZeroed.seeds = s.seeds := by simp [State.loadZeroed]
@[simp] theorem State.loadZeroed_draws : s.loadZeroed.draws = s.draws := by simp [State.loadZeroed]

@[simp] theorem State.loadRandom_lorenz : s.loadRandom.lorenz = randomLorenz s.rnd := by simp [State.loadRandom]
@[simp] theorem State.loadRandom_fsDec : s.loadRandom.fsDec = s.fsDec := by simp [State.loadRandom]
@[simp] theorem State.loadRandom_fsEnc : s.loadRandom.fsEnc = s.fsEnc := by simp [State.loadRandom]
@[simp] theorem State.loadRandom_cfg : s.loadRandom.cfg = s.cfg := by simp [State.loadRandom]
@[simp] theorem State.loadRandom_hostMoves : s.loadRandom.hostMoves = s.hostMoves := by simp [State.loadRandom]
@[simp] theorem State.loadRandom_responses : s.loadRandom.responses = s.responses := by simp [State.loadRandom]

end Sys2Proof.Machine
end

