-- ==== Sys2Proof/Laws/Ops.lean ====
section
/-! SUPPORT. What each shared operation over the state does, said once. -/

namespace Sys2Proof.Machine

variable (s : State)

theorem State.rnd_presented {s : State} {r : Seed} {more : List Seed} (h : s.seeds = r :: more) :
    s.rnd = r ∧ s.rndTaken.seeds = more ∧ s.rndTaken.draws = s.draws := by
  simp [State.rnd, State.rndTaken, h]

theorem State.rnd_free {s : State} (h : s.seeds = []) :
    s.rnd = Config.freeSeed s.draws ∧ s.rndTaken.seeds = [] ∧ s.rndTaken.draws = s.draws + 1 := by
  simp [State.rnd, State.rndTaken, h]

@[simp] theorem State.loadRandom_seeds : s.loadRandom.seeds = s.rndTaken.seeds := rfl

@[simp] theorem State.loadRandom_draws : s.loadRandom.draws = s.rndTaken.draws := rfl

/-- The reset under the default `RESET_LOAD` (R190). -/
theorem State.hostReset_zeroed {s : State} (h : s.cfg.resetLoad = .zeroed) :
    s.hostReset = { s with lorenz := zeroedLorenz, fsDec := false, fsEnc := false } := by
  simp only [State.hostReset, h]; rfl

/-- The reset under the other `RESET_LOAD` (R7). -/
theorem State.hostReset_random {s : State} (h : s.cfg.resetLoad = .random) :
    s.hostReset = { s.rndTaken with lorenz := randomLorenz s.rnd, fsDec := false, fsEnc := false } := by
  simp only [State.hostReset, h]; rfl

@[simp] theorem State.hostReset_fsDec : s.hostReset.fsDec = false := by unfold State.hostReset; split <;> rfl

@[simp] theorem State.hostReset_fsEnc : s.hostReset.fsEnc = false := by unfold State.hostReset; split <;> rfl

@[simp] theorem State.hostReset_cfg : s.hostReset.cfg = s.cfg := by unfold State.hostReset; split <;> simp

@[simp] theorem State.hostReset_hostMoves : s.hostReset.hostMoves = s.hostMoves := by
  unfold State.hostReset; split <;> simp

@[simp] theorem State.hostReset_responses : s.hostReset.responses = s.responses := by
  unfold State.hostReset; split <;> simp

/-- A reserved word that gives a next state gives the block's: no change but the response `NONE` (R75). -/
theorem reservedWord_next {w : Cmd} {s t : State} (h : reservedWord w s = .next t) :
    s.cfg.reservedWords = .ignore ∧ t = s.respond .none := by
  unfold reservedWord at h
  split at h
  · rename_i e; exact ⟨e, by injection h with h; exact h.symm⟩
  · cases h

end Sys2Proof.Machine
end

