-- ==== Sys2Proof/Laws/PerInstr.lean ====
section
/-! SUPPORT. Per instruction, as syntax: its fields are those of a command (spec/30_encoding.md R71, R72), and taking its word apart
gives them back. -/

namespace Sys2Proof.Laws.Fields

/-- The fields of the command are well formed for every character width its operand fits in, for 21 always, and are what its word
holds. -/
def Statement (i : Instr) : Prop :=
  (∀ charW, (∀ c, i = .encStep c → c.toNat < 2 ^ charW) → i.wellFormed charW = true) ∧ i.wellFormed 21 = true ∧
    Machine.fieldsOfWord (encode i) = i.fields

/-- The family from its first half: a character of 21 bits fits in 21 bits. -/
theorem of_wellFormed {i : Instr}
    (h : ∀ charW, (∀ c, i = .encStep c → c.toNat < 2 ^ charW) → i.wellFormed charW = true) : Statement i :=
  ⟨h, h 21 (fun c _ => c.isLt), Machine.fieldsOfWord_wordOfFields _⟩

theorem lzZero : Statement .lzZero := of_wellFormed fun _ _ => rfl

theorem lzSeed : Statement .lzSeed := of_wellFormed fun _ _ => rfl

theorem lzStep : Statement .lzStep := of_wellFormed fun _ _ => rfl

theorem lzEnc (b : Byte) : Statement (.lzEnc b) := by
  refine of_wellFormed fun charW _ => ?_
  have := b.isLt
  simp [Instr.wellFormed, Instr.fields, Fields.wellFormed, Fields.opAssigned, Fields.mbzZero, Fields.unusedArgZero, argBitsUsed]
  omega

theorem lzDraw : Statement .lzDraw := of_wellFormed fun _ _ => rfl

theorem decInit : Statement .decInit := of_wellFormed fun _ _ => rfl

theorem decStep (v : CodeUnit) : Statement (.decStep v) := by
  refine of_wellFormed fun charW _ => ?_
  have := v.isLt
  simp [Instr.wellFormed, Instr.fields, Fields.wellFormed, Fields.opAssigned, Fields.mbzZero, Fields.unusedArgZero, argBitsUsed]
  omega

theorem encInit : Statement .encInit := of_wellFormed fun _ _ => rfl

theorem encStep (c : CharCode) : Statement (.encStep c) := by
  refine of_wellFormed fun charW h => ?_
  have := h c rfl
  simp [Instr.wellFormed, Instr.fields, Fields.wellFormed, Fields.opAssigned, Fields.mbzZero, Fields.unusedArgZero, argBitsUsed]
  omega

end Sys2Proof.Laws.Fields
end

