-- ==== Sys2Proof/Laws/Step.lean ====
section
/-! SUPPORT. Everything one step can do, and runs taken apart move by move. -/

namespace Sys2Proof.Machine

theorem step_of_reset {s : State} {rest : List HostMove} (h : s.hostMoves = .reset :: rest) :
    step s = .next (State.hostReset { s with hostMoves := rest }) := by
  simp [step, State.nextMove, h]

theorem step_of_command {s : State} {w : Cmd} {rest : List HostMove} (h : s.hostMoves = .command w :: rest) :
    step s = runWord w { s with hostMoves := rest } := by
  simp [step, State.nextMove, h]

/-- If a step gives a next state, one of these happened. -/
theorem step_next_cases {s t : State} (h : step s = .next t) :
    (s.hostMoves = [] ∧ t = s) ∨
    (∃ rest, s.hostMoves = .reset :: rest ∧ t = State.hostReset { s with hostMoves := rest }) ∨
    (∃ w rest i, s.hostMoves = .command w :: rest ∧ decode s.cfg.charW w = .ok i ∧ exec i { s with hostMoves := rest } = .next t) ∨
    (∃ w rest e, s.hostMoves = .command w :: rest ∧ decode s.cfg.charW w = .error e ∧ s.cfg.reservedWords = .ignore ∧
      t = State.respond { s with hostMoves := rest } .none) := by
  match hm : s.hostMoves with
  | [] =>
    refine .inl ⟨rfl, ?_⟩
    simp only [step, State.nextMove, hm] at h
    injection h with h; exact h.symm
  | .reset :: rest =>
    refine .inr (.inl ⟨rest, rfl, ?_⟩)
    rw [step_of_reset hm] at h
    injection h with h; exact h.symm
  | .command w :: rest =>
    rw [step_of_command hm] at h
    unfold runWord at h
    split at h
    · rename_i i hd; exact .inr (.inr (.inl ⟨w, rest, i, rfl, hd, h⟩))
    · rename_i e hd
      obtain ⟨h1, h2⟩ := reservedWord_next h
      exact .inr (.inr (.inr ⟨w, rest, e, rfl, hd, h1, h2⟩))

/-- A run of one step more is a step and then the run. -/
theorem runSteps_succ {k : Nat} {s t : State} (h : step s = .next t) : runSteps (k + 1) s = runSteps k t := by
  simp [runSteps, h]

/-- A run of two lengths, one after the other. -/
theorem runSteps_add {j : Nat} (k : Nat) {s t : State} (h : runSteps j s = .next t) :
    runSteps (j + k) s = runSteps k t := by
  induction j generalizing s with
  | zero =>
    simp only [runSteps] at h
    injection h with h; subst h; simp
  | succ j ih =>
    rw [Nat.succ_add]
    simp only [runSteps] at h ⊢
    cases hs : step s with
    | next u => simp only [hs] at h ⊢; exact ih h
    | fault r => cases r
    | refused r => simp [hs] at h

/-- The model's run is the run of the host's interface. -/
theorem runSteps_eq_core (k : Nat) (s : State) : runSteps k s = Host.Core.run core k s := by
  induction k generalizing s with
  | zero => rfl
  | succ k ih =>
    have h : core.step s = step s := rfl
    simp only [runSteps, Host.Core.run, h]
    cases step s with
    | next t => exact ih t
    | fault r => rfl
    | refused r => rfl

@[simp] theorem commandMoves_nil : commandMoves [] = [] := rfl

@[simp] theorem commandMoves_cons (i : Instr) (is : List Instr) :
    commandMoves (i :: is) = .command (encode i) :: commandMoves is := rfl

end Sys2Proof.Machine
end

