-- ==== Sys2Proof/Laws/WellFormed.lean ====
section
/-! SUPPORT. What a well-formed pair of tables gives (spec/44_ita2_tables.md R141), condition by condition. -/

namespace Sys2Proof

open Machine

theorem tableHas_iff {t : CodeTable} {c : CharCode} : tableHas t c = true ↔ ∃ v, entry t v = some c := by
  simp [tableHas, mem_allCodes]

variable {k : Config} {c : CharCode} {u v : CodeUnit}

theorem Config.WellFormed.entry_shared (wf : k.WellFormed) (h : (v, c) ∈ sharedCodes) :
    entry k.ltrs v = some c ∧ entry k.figs v = some c := by
  have := List.all_eq_true.mp wf.sharedFixed _ h
  simpa using this

theorem Config.WellFormed.entry_control (wf : k.WellFormed) (h : v = figsCode ∨ v = ltrsCode) :
    entry k.ltrs v = none ∧ entry k.figs v = none := by
  have := List.all_eq_true.mp wf.controlsUndefined v (by simpa using h)
  simpa using this

theorem Config.WellFormed.shared_only_there (wf : k.WellFormed) (h : (v, c) ∈ sharedCodes)
    (hu : entry k.ltrs u = some c ∨ entry k.figs u = some c) : u = v := by
  have h1 := List.all_eq_true.mp wf.sharedOnlyThere _ h
  have h2 := List.all_eq_true.mp h1 u (mem_allCodes u)
  rcases hu with hu | hu <;> simp [hu] at h2 <;> exact h2

theorem Config.WellFormed.ltrs_unique (wf : k.WellFormed) (hc : isShared c = false)
    (hu : entry k.ltrs u = some c) (hv : entry k.ltrs v = some c) : u = v := by
  have h1 := List.all_eq_true.mp wf.othersOnce u (mem_allCodes u)
  have h2 := List.all_eq_true.mp h1 v (mem_allCodes v)
  simp only [hu, hv, entriesClash, hc, Bool.and_eq_true, Bool.or_eq_true, beq_iff_eq] at h2
  simpa using h2.1

theorem Config.WellFormed.figs_unique (wf : k.WellFormed) (hc : isShared c = false)
    (hu : entry k.figs u = some c) (hv : entry k.figs v = some c) : u = v := by
  have h1 := List.all_eq_true.mp wf.othersOnce u (mem_allCodes u)
  have h2 := List.all_eq_true.mp h1 v (mem_allCodes v)
  simp only [hu, hv, entriesClash, hc, Bool.and_eq_true, Bool.or_eq_true, beq_iff_eq] at h2
  simpa using h2.1

theorem Config.WellFormed.not_in_both (wf : k.WellFormed) (hc : isShared c = false)
    (hu : entry k.ltrs u = some c) : entry k.figs v ≠ some c := by
  intro hv
  have h1 := List.all_eq_true.mp wf.othersOnce u (mem_allCodes u)
  have h2 := List.all_eq_true.mp h1 v (mem_allCodes v)
  simp [hu, hv, entriesClash, hc] at h2

theorem Config.WellFormed.entry_scalar (wf : k.WellFormed) (h : entry k.ltrs v = some c ∨ entry k.figs v = some c) :
    isScalar c = true := by
  have h1 := List.all_eq_true.mp wf.entriesScalar v (mem_allCodes v)
  rcases h with h | h <;> simp [h] at h1
  · exact h1.1
  · exact h1.2

theorem Config.WellFormed.entry_fits (wf : k.WellFormed) (h : entry k.ltrs v = some c ∨ entry k.figs v = some c) :
    c.toNat < 2 ^ k.charW.val := by
  have h1 := List.all_eq_true.mp wf.entriesFit v (mem_allCodes v)
  rcases h with h | h <;> simp [h] at h1
  · exact h1.1
  · exact h1.2

end Sys2Proof
end

