-- ==== Sys2Proof/Tests/Slice0.lean ====
section
/-! SUPPORT. The model's own tests. Expected results are those of spec/95_test_vectors.md and of the examples and tables of the
rules, named in each comment; the last part shows that the hypotheses of every statement can be met together. -/

namespace Sys2Proof.Tests

open Machine Safety

/-! ## Helpers -/

/-- The next state of an outcome, if there is one. -/
def nextOf (o : Host.Outcome State Fault Refusal) : Option State :=
  match o with
  | .next s => some s
  | _ => none

/-- The last response the host has observed in the next state of an outcome. -/
def answerOf (o : Host.Outcome State Fault Refusal) : Option Response :=
  match o with
  | .next s => s.responses.getLast?
  | _ => none

/-- The command a word decodes to under the default `CHAR_W`. -/
def decoded (w : Cmd) : Option Instr := (decode 21 w).toOption

/-- The reset block with the wheels `RND` gives. -/
def seeded (r : Seed) : State := State.reset.setLorenz (randomLorenz r)

/-- The reset block with the host's moves still to make. -/
def pending (ms : List HostMove) : State := { State.reset with hostMoves := ms }

/-- The twelve head indices of a machine, in order. -/
def heads (m : Lorenz) : List Nat :=
  [m.psi.a.head.val, m.psi.b.head.val, m.psi.c.head.val, m.psi.d.head.val, m.psi.e.head.val, m.mu.f.head.val, m.mu.g.head.val,
   m.chi.h.head.val, m.chi.i.head.val, m.chi.j.head.val, m.chi.k.head.val, m.chi.l.head.val]

/-- Seed S1 of 95_test_vectors.md. -/
def s1 : Seed :=
  0x102040A08208221084212222222292492492494CCCCCCCCCCCCCCEAAAAAAAAA1041041041041048421084210842444444444444524924924924D5555555555

/-- Seed G1 of 95_test_vectors.md: bits 253, 290, 352, 393, 424, 453, 479. -/
def g1 : Seed := BitVec.ofNat 501 (2 ^ 253 + 2 ^ 290 + 2 ^ 352 + 2 ^ 393 + 2 ^ 424 + 2 ^ 453 + 2 ^ 479)

/-! ## Well-formedness: each check refuses an ill-formed term -/

/-- R75: `op` 0x6 is not assigned. -/
theorem test_fields_unassigned_op : Fields.opAssigned { op := 0x6, mbz := 0, arg := 0 } = false := by decide

/-- R71, V61: `mbz` bit 21 set. -/
theorem test_fields_mbz : Fields.mbzZero { op := 0x3, mbz := 1, arg := 0 } = false := by decide

/-- R72, V61: `DEC.STEP` with `arg` bit 5 set. -/
theorem test_fields_unused_arg : Fields.unusedArgZero 21 { op := 0x9, mbz := 0, arg := 0x20 } = false := by decide

/-- R7, R71: under an 8-bit `CHAR_W`, `ENC.STEP` with `arg` bit 8 set. -/
theorem test_fields_narrow_character : Fields.wellFormed 8 { op := 0xB, mbz := 0, arg := 0x100 } = false := by decide

/-- V54: no `ENC.STEP` operand is reserved. -/
theorem test_fields_encStep_all : Fields.wellFormed 21 { op := 0xB, mbz := 0, arg := 0x1FFFFF } = true := by decide

/-- R141 T1: code 0x04 without its space. -/
theorem test_tables_shared_missing :
    Config.sharedFixed { defaultConfig with figs := defaultFigs.set 4 none } = false := by decide +kernel

/-- R141 T2: a character at the figure-shift control. -/
theorem test_tables_control_defined :
    Config.controlsUndefined { defaultConfig with ltrs := defaultLtrs.set 0x1B (some 0x23) } = false := by decide +kernel

/-- R141 T3: a second space, at code 0x14. -/
theorem test_tables_shared_twice :
    Config.sharedOnlyThere { defaultConfig with figs := defaultFigs.set 0x14 (some 0x20) } = false := by decide +kernel

/-- R141 T4: `A` in the figures table too. -/
theorem test_tables_in_both :
    Config.othersOnce { defaultConfig with figs := defaultFigs.set 0x14 (some 0x41) } = false := by decide +kernel

/-- R141 T5: no `!` anywhere. -/
theorem test_tables_named_missing :
    Config.namedCharacters { defaultConfig with figs := defaultFigs.set 0x0D none } = false := by decide +kernel

/-- R144: an entry that is no scalar value. -/
theorem test_tables_entry_not_scalar :
    Config.entriesScalar { defaultConfig with figs := defaultFigs.set 0x14 (some 0xD800) } = false := by decide +kernel

/-- R7: `Z`, U+005A, does not fit in six bits. -/
theorem test_tables_entry_too_wide : Config.entriesFit { defaultConfig with charW := 6 } = false := by decide +kernel

/-- D4: "8 bits suffice for the default tables". -/
theorem test_tables_fit_8_bits : Config.entriesFit { defaultConfig with charW := 8 } = true := by decide +kernel

/-- R142: the default satisfies R141. -/
theorem default_wellFormed : defaultConfig.WellFormed :=
  ⟨by decide +kernel, by decide +kernel, by decide +kernel, by decide +kernel, by decide +kernel, by decide +kernel,
    by decide +kernel⟩

/-! ## Decoding: words written out from R74 and V60; reserved words from V61 -/

/-- op 0001, the rest zero. -/
theorem test_decode_lzZero : decoded 0b00010000000000000000000000000000 = some .lzZero := by decide

/-- op 0010, the rest zero. -/
theorem test_decode_lzSeed : decoded 0b00100000000000000000000000000000 = some .lzSeed := by decide

/-- op 0011, the rest zero. -/
theorem test_decode_lzStep : decoded 0b00110000000000000000000000000000 = some .lzStep := by decide

/-- op 0100, `b` = 10101011 in bits 7:0. -/
theorem test_decode_lzEnc : decoded 0b01000000000000000000000010101011 = some (.lzEnc 0xAB) := by decide

/-- op 0101, the rest zero. -/
theorem test_decode_lzDraw : decoded 0b01010000000000000000000000000000 = some .lzDraw := by decide

/-- op 1000, the rest zero. -/
theorem test_decode_decInit : decoded 0b10000000000000000000000000000000 = some .decInit := by decide

/-- op 1001, `v` = 11011 in bits 4:0. -/
theorem test_decode_decStep : decoded 0b10010000000000000000000000011011 = some (.decStep 0x1B) := by decide

/-- op 1010, the rest zero. -/
theorem test_decode_encInit : decoded 0b10100000000000000000000000000000 = some .encInit := by decide

/-- op 1011, `c` = U+10FFFF in bits 20:0. -/
theorem test_decode_encStep : decoded 0b10110000000100001111111111111111 = some (.encStep 0x10FFFF) := by decide

/-- V61. -/
theorem test_decode_reserved :
    [0x00000000, 0x60000000, 0x70000000, 0xC0000000, 0xD0000000, 0xE0000000, 0xF0000000, 0x30200000, 0x10000001, 0x40000100,
      0x90000020, 0xB0200000, 0x3FFFFFFF].map decoded = List.replicate 13 none := by decide

/-- V54: `0xB01FFFFF` is a command. -/
theorem test_decode_not_reserved : decoded 0xB01FFFFF = some (.encStep 0x1FFFFF) := by decide

/-- R7, D4: under an 8-bit `CHAR_W` the word of U+00FF is a command and that of U+0100 is reserved. -/
theorem test_decode_narrow : (decode 8 0xB00000FF, decode 8 0xB0000100) = (.ok (.encStep 0xFF), .error .unusedArgNotZero) := by
  decide

/-- V60: the encoder. -/
theorem test_encode_words :
    [encode (.lzEnc 0xFF), encode (.decStep 0x1B), encode (.encStep 0x41), encode .lzDraw] =
      [0x400000FF, 0x9000001B, 0xB0000041, 0x50000000] := by decide

/-! ## The commands -/

/-- R116: from seed S1, `LZ.ZERO` leaves no cell set and answers `NONE`. -/
theorem test_lzZero :
    (nextOf (exec .lzZero (seeded s1))).map (fun t => (t.lorenz.psi.a.cells, t.lorenz.chi.l.cells, heads t.lorenz)) =
      some (0, 0, List.replicate 12 0) := by decide +kernel

/-- R117, R22: seed S1 loads `a` with cells 1, 0, 1, 0, … and `l` with cells 1, 8 and 15, 22. -/
theorem test_lzSeed :
    (nextOf (exec .lzSeed { State.reset with seeds := [s1] })).map
      (fun t => (t.lorenz.psi.a.cells, t.lorenz.chi.l.cells, t.seeds)) =
      some (0x55555555555, 2 ^ 1 + 2 ^ 8 + 2 ^ 15 + 2 ^ 22, []) := by decide +kernel

/-- V24: from G(1,0) `g` moves and Chi does not. -/
theorem test_lzStep_g_only :
    (nextOf (exec .lzStep (seeded (BitVec.ofNat 501 (2 ^ 253))))).map (fun t => heads t.lorenz) =
      some [1, 1, 1, 1, 1, 1, 1, 0, 0, 0, 0, 0] := by decide +kernel

/-- V24: from G1 all twelve wheels move, and `chi.read_all` goes from 00 to 1F. -/
theorem test_lzStep_all :
    (nextOf (exec .lzStep (seeded g1))).map (fun t => (heads t.lorenz, t.lorenz.chi.readAll t.cfg.packChi)) =
      some (List.replicate 12 1, 0x1F) := by decide +kernel

/-- V10: the heads wrap. -/
theorem test_stepAll_wraps :
    [(Psi.stepAll { zeroedLorenz.psi with a := { cells := 0, head := 42 }, e := { cells := 0, head := 58 } }).a.head.val,
     (Psi.stepAll { zeroedLorenz.psi with a := { cells := 0, head := 42 }, e := { cells := 0, head := 58 } }).e.head.val,
     (Chi.stepAll { zeroedLorenz.chi with l := { cells := 0, head := 22 } }).l.head.val] = [0, 0, 0] := by decide

/-- V21: seed S1, `LZ.ENC 0x14 -> BYTE 0x0B`. -/
theorem test_lzEnc : answerOf (exec (.lzEnc 0x14) (seeded s1)) = some (.byte 0x0B) := by decide +kernel

/-- V21: bits 7:5 pass through, `LZ.ENC 0xE5 -> BYTE 0xFA`. -/
theorem test_lzEnc_high_bits : answerOf (exec (.lzEnc 0xE5) (seeded s1)) = some (.byte 0xFA) := by decide +kernel

/-- V30. -/
theorem test_lzDraw : answerOf (exec .lzDraw (seeded s1)) = some (.snap 0x81208848849666AB0410C449355) := by decide +kernel

/-- V31: the same machine with `DRAW_SEG11_SRC = b`. -/
theorem test_lzDraw_seg11_b :
    answerOf (exec .lzDraw { seeded s1 with cfg := { defaultConfig with drawSeg11 := .wheelB } }) =
      some (.snap 0x24A08848849666AB0410C449355) := by decide +kernel

/-- V44: `DEC.INIT` after figures. -/
theorem test_decInit :
    (nextOf (exec .decInit { State.reset with fsDec := true, fsEnc := true })).map (fun t => (t.fsDec, t.fsEnc)) =
      some (false, true) := by decide

/-- R151: in figures `DEC.STEP 0x17 -> CHAR '1'`, and 0x14 is skipped (V42). -/
theorem test_decStep_figures :
    [answerOf (exec (.decStep 0x17) { State.reset with fsDec := true }), answerOf (exec (.decStep 0x14) { State.reset with fsDec := true })] =
      [some (.char 0x31), some .none] := by decide

/-- R151: `DEC.STEP 0x1B` answers `NONE` and selects figures. -/
theorem test_decStep_shift :
    (nextOf (exec (.decStep 0x1B) State.reset)).map (fun t => (t.fsDec, t.responses)) = some (true, [.none]) := by decide

/-- V40: the letters table read in code order. -/
theorem test_letters_table :
    allCodes.filterMap (entry defaultLtrs) =
      ("\x00E\nA SIU\rDRJNFCKTZLWHYPQOBGMXV".toList.map (fun c => BitVec.ofNat 21 c.toNat)) := by decide +kernel

/-- V41: the figures table read in code order. -/
theorem test_figures_table :
    allCodes.filterMap (entry defaultFigs) =
      ("\x003\n- '87\r\x054\x07,!:(5+)26019?&./=".toList.map (fun c => BitVec.ofNat 21 c.toNat)) := by decide +kernel

/-- V55: `ENC.INIT` after figures emits nothing. -/
theorem test_encInit :
    (nextOf (exec .encInit { State.reset with fsEnc := true, fsDec := true })).map (fun t => (t.fsEnc, t.fsDec, t.responses)) =
      some (false, true, [.none]) := by decide

/-- S6: `ENC.STEP '1'` in letters gives `UNIT2 1B 17` and figures. -/
theorem test_encStep_pair :
    (nextOf (exec (.encStep 0x31) State.reset)).map (fun t => (t.fsEnc, t.responses)) = some (true, [.unit2 0x1B 0x17]) := by
  decide +kernel

/-- V52, V53: a space in figures does not shift, `a` is skipped. -/
theorem test_encStep_no_shift :
    [answerOf (exec (.encStep 0x20) { State.reset with fsEnc := true }), answerOf (exec (.encStep 0x61) State.reset)] =
      [some (.unit1 0x04), some .none] := by decide +kernel

/-! ## The step -/

/-- P6: the reserved word 0x40000115 answers `NONE` and changes nothing. -/
theorem test_step_reserved :
    (nextOf (step (pending [.command 0x40000115]))) = some { State.reset with responses := [.none] } := by decide +kernel

/-- R75: where the parameter says so, the same word is refused. -/
theorem test_step_reserved_refused :
    (match step { pending [.command 0] with cfg := { defaultConfig with reservedWords := .refuse } } with
      | .refused (.reservedWord w) => w == 0
      | _ => false) = true := by decide +kernel

/-- V70: a reset in the middle of a run gives the reset block. -/
theorem test_step_reset :
    nextOf (step { seeded s1 with fsDec := true, fsEnc := true, hostMoves := [.reset] }) = some State.reset := by decide +kernel

/-- V70: the first command after reset, `LZ.ENC 0x0A -> BYTE 0x0A`, presented as a table word. -/
theorem test_step_presented : answerOf (step (State.reset.withFetchWord 32 0x4000000A)) = some (.byte 0x0A) := by decide +kernel

/-- Every row of the opcode table, presented to the reset block with its operand zero, gives a next state: one response more. -/
theorem test_step_rows :
    [0x10000000, 0x30000000, 0x40000000, 0x50000000, 0x80000000, 0x90000000, 0xA0000000, 0xB0000000].map
      (fun w => (nextOf (step (State.reset.withFetchWord 32 w))).map (fun t => t.responses.length)) =
      List.replicate 8 (some 1) := by decide +kernel

/-! ## Witnesses: the hypotheses of each statement can be met together -/

/-- EncodeOfDecode, WordSelectsRow, NarrowCharactersOnly, DecodeOfEncode (the widest operand of 8 bits), StepRunsDecodedCommand. -/
theorem witness_decodes :
    decode 21 0x4000000A = .ok (.lzEnc 0x0A) ∧ OperandFits 8 (.encStep 0xFF) ∧ OperandFits 21 (.encStep 0x1FFFFF) ∧
    decode (pending []).cfg.charW 0x4000000A = .ok (.lzEnc 0x0A) ∧
    (pending [.command 0x4000000A]).hostMoves = .command 0x4000000A :: [] :=
  ⟨rfl, by simp [OperandFits], by simp [OperandFits], rfl, rfl⟩

/-- PresentedWordRunsNext. -/
theorem witness_presented :
    decodeTableWord 32 0xB01FFFFF = some (.encStep 0x1FFFFF) ∧ OperandFits State.reset.cfg.charW (.encStep 0x1FFFFF) :=
  ⟨by decide, by unfold OperandFits; decide⟩

/-- ReservedWordIsNoCommand: one word for each way to be reserved, under both treatments. -/
theorem witness_reserved :
    IsReserved 21 0x70000000 ∧ IsReserved 21 0x3FE00000 ∧ IsReserved 21 0x10000001 ∧ IsReserved 21 0x40000100 ∧
    IsReserved 21 0x90000020 ∧ IsReserved 8 0xB0000100 ∧ IsReserved State.reset.cfg.charW 0x10000001 ∧
    (pending [.command 0x10000001]).hostMoves = .command 0x10000001 :: [] ∧
    (pending [.command 0x10000001]).cfg.reservedWords = .ignore ∧
    ({ pending [.command 0x10000001] with cfg := { defaultConfig with reservedWords := .refuse } } : State).cfg.reservedWords =
      .refuse := by
  refine ⟨?_, ?_, ?_, ?_, ?_, ?_, ?_, rfl, rfl, rfl⟩ <;> unfold IsReserved <;> decide

/-- WaitsForTheHost, NoStepIsFatal. -/
theorem witness_waits : State.reset.hostMoves = [] ∧ State.reset.cfg.reservedWords = .ignore := ⟨rfl, rfl⟩

/-- HostResetClears. -/
theorem witness_reset_zeroed : (pending [.reset]).hostMoves = .reset :: [] ∧ (pending [.reset]).cfg.resetLoad = .zeroed :=
  ⟨rfl, rfl⟩

/-- The reset block with the other `RESET_LOAD`, the host about to reset it, one value of `RND` presented. -/
def randomReset (seeds : List Seed) : State :=
  { pending [.reset] with cfg := { defaultConfig with resetLoad := .random }, seeds := seeds }

/-- HostResetSeeds, with a presented and with a free draw. -/
theorem witness_reset_random :
    (randomReset [s1]).hostMoves = .reset :: [] ∧ (randomReset [s1]).cfg.resetLoad = .random ∧ (randomReset [s1]).seeds = s1 :: [] ∧
    (randomReset []).cfg.resetLoad = .random ∧ (randomReset []).seeds = [] := ⟨rfl, rfl, rfl, rfl, rfl⟩

/-- ResetStateValues, LzZeroClearsWheels, LzSeedLoadsRnd, HostResetSeeds: the last cell of the shortest and the longest wheel, and
both kinds of draw. -/
theorem witness_cells :
    22 < WheelName.len .l ∧ 60 < WheelName.len .g ∧ ({ State.reset with seeds := [s1] } : State).seeds = s1 :: [] ∧
    State.reset.seeds = [] := ⟨by decide, by decide, rfl, rfl⟩

/-- BasesAreLengthSums. -/
theorem witness_bases : WheelName.all[0]? = some .a ∧ WheelName.all[11]? = some .l := by decide

/-- SeedBitsUsedOnce. -/
theorem witness_heads_zero : ∀ w, (zeroedLorenz.wheel w).head.val = 0 := by intro w; cases w <;> rfl

/-- StoppedMotorHoldsChi. -/
theorem witness_stopped :
    (pending (commandMoves (List.replicate 3 .lzStep))).hostMoves = commandMoves (List.replicate 3 .lzStep) ++ [] ∧
    (pending (commandMoves (List.replicate 3 .lzStep))).lorenz.mu.f.cells = 0 := ⟨rfl, rfl⟩

/-- DefaultPackingBits, ZeroMachineKeystream, ZeroMachineDrawsNothing; the bank positions at both ends; an operand at the bound. -/
theorem witness_default_packing :
    AllZero State.reset.lorenz ∧ State.reset.cfg.packPsi = defaultPack ∧ State.reset.cfg.packChi = defaultPack ∧
    [WheelName.a, .b, .c, .d, .e][0]? = some .a ∧ [WheelName.h, .i, .j, .k, .l][0]? = some .h ∧
    [WheelName.a, .b, .c, .d, .e][4]? = some .e ∧ [WheelName.h, .i, .j, .k, .l][4]? = some .l ∧
    (0x1F : Byte).toNat ≤ 0x1F := by
  refine ⟨fun w => ?_, rfl, rfl, rfl, rfl, rfl, rfl, by decide⟩
  cases w <;> rfl

/-- ReadsArePure. -/
theorem witness_pure : (∃ b, Instr.lzEnc 0 = .lzEnc b) ∧ (.lzDraw : Instr) = .lzDraw := ⟨⟨0, rfl⟩, rfl⟩

/-- A sender that seeds its machine and enciphers one byte. -/
def sender : State := { pending (commandMoves (.lzSeed :: [(0x14 : Byte)].flatMap lzCrypt)) with seeds := [s1] }

/-- LockstepRoundTrip: both constructions; a receiver with the same seed and packings and the enciphered byte 0x0B (P3). -/
theorem witness_lockstep :
    sender.hostMoves = commandMoves (.lzSeed :: [(0x14 : Byte)].flatMap lzCrypt) ++ [] ∧ sender.seeds ≠ [] ∧
    (pending (commandMoves (.lzZero :: [(0x14 : Byte)].flatMap lzCrypt))).hostMoves =
      commandMoves (.lzZero :: [(0x14 : Byte)].flatMap lzCrypt) ++ [] ∧
    ({ pending (commandMoves (.lzSeed :: [(0x0B : Byte)].flatMap lzCrypt)) with seeds := [s1] } : State).seeds.head? =
      sender.seeds.head? := ⟨rfl, by simp [sender], rfl, rfl⟩

/-- BanksRealign, both directions: 0 is a multiple, and no step leaves the bank where it is. -/
theorem witness_realign : Psi.stepAll^[0] zeroedLorenz.psi = zeroedLorenz.psi ∧ 43 * 47 * 51 * 53 * 59 ∣ 0 ∧
    Chi.stepAll^[0] zeroedLorenz.chi = zeroedLorenz.chi ∧ 41 * 31 * 29 * 26 * 23 ∣ 0 := ⟨rfl, by simp, rfl, by simp⟩

/-- StepsRotateTheArray at the last index. -/
theorem witness_rotate : 22 < 23 ∧ (zeroedLorenz.chi.l.asArray).length = 23 := by decide +kernel

/-- Wheel `l` with cells 0 and 1 set and its head at cell 1. -/
def turned : Wheel 23 := { cells := 0b11, head := 1 }

/-- The same bits from the head on, held with head 0. -/
def unturned : Wheel 23 := { cells := 0b1 + 2 ^ 22, head := 0 }

/-- ArrayIsWhatIsObservable: two different wheels with one `as_array` (and two with different ones, in `turned` and a zero wheel). -/
theorem witness_array : turned.asArray = unturned.asArray ∧ turned ≠ unturned ∧ turned.asArray ≠ zeroedLorenz.chi.l.asArray := by
  decide +kernel

/-- RepresentationIsInvisible: two different states that no response tells apart, one command away from the end of a run. -/
theorem witness_representation :
    ObsEq { pending [.command 0x50000000] with lorenz := { zeroedLorenz with chi := { zeroedLorenz.chi with l := turned } } }
      { pending [.command 0x50000000] with lorenz := { zeroedLorenz with chi := { zeroedLorenz.chi with l := unturned } } } ∧
    (nextOf (runSteps 1
      { pending [.command 0x50000000] with lorenz := { zeroedLorenz with chi := { zeroedLorenz.chi with l := turned } } })).isSome =
      true := by
  refine ⟨⟨fun w => ?_, rfl, rfl, rfl, rfl, rfl, rfl, rfl⟩, by decide +kernel⟩
  cases w
  case l => exact witness_array.1
  all_goals rfl

/-- SplitWheelRefines: the length of the smallest wheel of the block is not zero, and two steps of a split wheel of length 3 (R35). -/
theorem witness_split :
    (23 : Nat) ≠ 0 ∧
    SplitWheel.asArray (SplitWheel.stepClockwise^[2] (SplitWheel.ofCells [true, false, false])) = [false, true, false] := by
  decide

/-- LzDrawClosedForm at the ends of the ranges. -/
theorem witness_draw : 11 ≤ 11 ∧ 8 ≤ 8 ∧ 9 * 11 + 8 = 107 ∧ (10 % 2 = 0 ∧ 11 % 2 ≠ 0) := by decide

/-- DrawSeesNineCells: a cell nine positions ahead of the head of `l` is not seen (V33, bit 487 is cell 9 of `l`). -/
theorem witness_nine_cells :
    State.reset.cfg.drawSeg11 = (seeded (BitVec.ofNat 501 (2 ^ 487))).cfg.drawSeg11 ∧
    (∀ w j, j < 9 → cellAhead State.reset.lorenz w j = cellAhead (seeded (BitVec.ofNat 501 (2 ^ 487))).lorenz w j) ∧
    State.reset.lorenz ≠ (seeded (BitVec.ofNat 501 (2 ^ 487))).lorenz := by
  refine ⟨rfl, ?_, by decide +kernel⟩
  have key : ∀ w ∈ WheelName.all, ∀ j ∈ List.range 9,
      cellAhead State.reset.lorenz w j = cellAhead (seeded (BitVec.ofNat 501 (2 ^ 487))).lorenz w j := by decide +kernel
  intro w j hj
  exact key w (by cases w <;> decide) j (List.mem_range.mpr hj)

/-- DecStepTransition: the default tables; a code for each clause, with an entry and without one (SharedCodesDecodeAlike's witness
has the shared ones). -/
theorem witness_decStep :
    (State.reset.cfg.ltrs = defaultLtrs ∧ State.reset.cfg.figs = defaultFigs) ∧
    (0x1E#5 ≠ 0x1B#5 ∧ 0x1E#5 ≠ 0x1F#5 ∧ entry defaultFigs 0x1E = some 0x3D) ∧
    (0x14#5 ≠ 0x1B#5 ∧ 0x14#5 ≠ 0x1F#5 ∧ entry defaultFigs 0x14 = none ∧ entry defaultLtrs 0x14 = some 0x48) := by decide

/-- SharedCodesDecodeAlike: the first and the last shared code. -/
theorem witness_shared : State.reset.cfg.WellFormed ∧ MapsShared 0x00 0x00 ∧ MapsShared 0x0D 0x08 :=
  ⟨default_wellFormed, by simp [MapsShared], by simp [MapsShared]⟩

/-- EncStepTransition, CharacterClassesExclusive: a character for each clause: `a`, space, `A`, `1`. -/
theorem witness_encStep :
    State.reset.cfg.WellFormed ∧ Unmapped defaultConfig 0x61 ∧ MapsShared 0x20 0x04 ∧ MapsLetters defaultConfig 0x41 0x03 ∧
    MapsFigures defaultConfig 0x31 0x17 := by
  have all : ∀ (P : CodeUnit → Prop), (∀ v ∈ allCodes, P v) → ∀ v, P v := fun P h v => h v (mem_allCodes v)
  refine ⟨default_wellFormed, all _ (by decide +kernel), by simp [MapsShared], ⟨?_, by decide⟩, ⟨?_, all _ (by decide +kernel), by decide⟩⟩
  · rintro ⟨v, h⟩; simp [MapsShared] at h
  · rintro ⟨v, h⟩; simp [MapsShared] at h

/-- EncStepTransition: the lower-case letters at both ends. -/
theorem witness_lower_case :
    0x61 ≤ (0x61 : CharCode).toNat ∧ (0x61 : CharCode).toNat ≤ 0x7A ∧ 0x61 ≤ (0x7A : CharCode).toNat ∧
    (0x7A : CharCode).toNat ≤ 0x7A := by decide

/-- NonScalarIsSkipped, ReservedWordIsNoCommand, EncStepTransition: both ranges, at their ends (V54). -/
theorem witness_not_scalar :
    (0xD800 ≤ (0xD800 : CharCode).toNat ∧ (0xD800 : CharCode).toNat ≤ 0xDFFF) ∧
    (0xD800 ≤ (0xDFFF : CharCode).toNat ∧ (0xDFFF : CharCode).toNat ≤ 0xDFFF) ∧ 0x10FFFF < (0x110000 : CharCode).toNat ∧
    0x10FFFF < (0x1FFFFF : CharCode).toNat := by decide

/-- CodecRoundTrip, EncoderControlsLead (second clause): the string `A1`, its three units and a fresh Decoder. -/
theorem witness_round_trip :
    State.reset.cfg.WellFormed ∧ (∀ c ∈ [(0x41 : CharCode), 0x31], c.toNat < 2 ^ State.reset.cfg.charW.val) ∧
    (pending (commandMoves (encStr [0x41, 0x31]))).hostMoves = commandMoves (encStr [0x41, 0x31]) ++ [] ∧
    flatUnits [.unit1 0x03, .unit2 0x1B 0x17] = [0x03, 0x1B, 0x17] ∧
    (pending (commandMoves (decSeq [0x03, 0x1B, 0x17]))).hostMoves =
      commandMoves (decSeq (flatUnits [.unit1 0x03, .unit2 0x1B 0x17])) ++ [] ∧
    (pending (commandMoves (decSeq [0x03, 0x1B, 0x17]))).fsDec = (pending (commandMoves (encStr [0x41, 0x31]))).fsEnc :=
  ⟨default_wellFormed, fun c _ => c.isLt, rfl, rfl, rfl, rfl⟩

/-- EncoderControlsLead, first clause: `ENC.STEP '1'` in letters. -/
theorem witness_pair :
    State.reset.cfg.WellFormed ∧ ∃ t, exec (.encStep 0x31) State.reset = .next t ∧
      t.responses = State.reset.responses ++ [.unit2 0x1B 0x17] := by
  refine ⟨default_wellFormed, _, rfl, ?_⟩
  decide +kernel

/-- StepKeepsInv, CellsChangeOnlyByConstruction, FlagsChangeOnlyByTheirCodec, ParametersNeverChange: a step from a state that meets
the invariant, `DEC.STEP 0x1B`, which changes `FS_DEC`. -/
theorem witness_step :
    Inv (pending [.command 0x9000001B]) ∧
    ∃ t, step (pending [.command 0x9000001B]) = .next t ∧ t.fsDec ≠ (pending [.command 0x9000001B]).fsDec := by
  refine ⟨⟨default_wellFormed, fun r h => ?_⟩, _, rfl, by decide +kernel⟩
  simp [pending, State.reset] at h

/-- CellsChangeOnlyByConstruction: `LZ.SEED` changes a cell of `f`, `LZ.STEP` the head of `a`; FlagsChangeOnlyByTheirCodec:
`ENC.STEP '1'` changes `FS_ENC`. -/
theorem witness_changes :
    (nextOf (step { pending [.command 0x20000000] with seeds := [s1] })).map (fun t => t.lorenz.mu.f.cells == 0) = some false ∧
    (nextOf (step (pending [.command 0x30000000]))).map (fun t => t.lorenz.psi.a.head.val) = some 1 ∧
    (nextOf (step (pending [.command 0xB0000031]))).map (fun t => t.fsEnc) = some true := by decide +kernel

/-- StepKeepsZeroForever, ResetIsZeroForever. -/
theorem witness_zero_forever :
    Instr.lzSeed ∉ [Instr.lzStep, .lzDraw] ∧ ZeroForever State.reset ∧ ∃ t, step State.reset = .next t := by
  refine ⟨by decide, ⟨fun w => ?_, fun w h => ?_, rfl⟩, _, rfl⟩
  · cases w <;> rfl
  · simp [State.reset] at h

/-- FlagsAreIndependent, CodecIgnoresWheels: a command of each kind. -/
theorem witness_kinds :
    (Instr.decInit = .decInit ∨ ∃ v, Instr.decInit = .decStep v) ∧ (Instr.encInit = .encInit ∨ ∃ c, Instr.encInit = .encStep c) ∧
    (Instr.lzSeed = .lzZero ∨ Instr.lzSeed = .lzSeed ∨ Instr.lzSeed = .lzStep ∨ (∃ x, Instr.lzSeed = .lzEnc x) ∨ Instr.lzSeed = .lzDraw) := by
  refine ⟨.inl rfl, .inl rfl, .inr (.inl rfl)⟩

/-- EncIgnoresMu: a machine that differs from the reset machine in both Mu wheels. -/
theorem witness_mu :
    (∀ w, w ≠ .f → w ≠ .g →
      cellAhead { zeroedLorenz with mu := { f := { cells := 1, head := 0 }, g := { cells := 1, head := 0 } } } w 0 =
        cellAhead State.reset.lorenz w 0) := by
  intro w hf hg
  cases w <;> first | rfl | exact absurd rfl hf | exact absurd rfl hg

end Sys2Proof.Tests
end

section
/-! PROOFS. The command words: what the decoder accepts, which words it rejects as reserved (spec/30_encoding.md R71 to R75). -/

namespace Sys2Proof.Machine

open Safety

/-! ## Words that decode -/

theorem decodeFields_fields {charW : Nat} {i : Instr} (h : OperandFits charW i) : decodeFields charW i.fields = .ok i := by
  cases i with
  | lzEnc b =>
    refine (byteOperand_ok_iff _ _ _).mpr ⟨?_, ?_⟩
    · have := b.isLt
      simp [Instr.fields]; omega
    · simp [Instr.fields]
  | decStep v =>
    refine (unitOperand_ok_iff _ _ _).mpr ⟨?_, ?_⟩
    · have := v.isLt
      simp [Instr.fields]; omega
    · simp [Instr.fields]
  | encStep c => exact (charOperand_ok_iff charW c .encStep _).mpr ⟨h, rfl⟩
  | lzZero | lzSeed | lzStep | lzDraw | decInit | encInit => rfl

/-- Fields with `mbz` zero, the operation code of a command and the command's `arg` are the fields of the command. -/
theorem fields_eq_of_parts {x : Fields} {i : Instr} (hm : x.mbz = 0#7) (ho : x.op.toNat = i.fields.op.toNat)
    (ha : x.arg.toNat = i.fields.arg.toNat) : x = i.fields := by
  have hi : i.fields.mbz = 0#7 := by cases i <;> rfl
  exact Fields.ext (BitVec.eq_of_toNat_eq ho) (hm.trans hi.symm) (BitVec.eq_of_toNat_eq ha)

/-- A command without operand is read only from its own fields (R72). -/
theorem fields_of_noOperand {charW : Nat} {x : Fields} {i j : Instr} (h : noOperand x.arg i = .ok j) (hm : x.mbz = 0#7)
    (ho : x.op.toNat = i.fields.op.toNat) (ha : i.fields.arg = 0#21) (hf : OperandFits charW i) :
    x = j.fields ∧ OperandFits charW j := by
  obtain ⟨h0, rfl⟩ := (noOperand_ok_iff _ _ _).mp h
  exact ⟨fields_eq_of_parts hm ho (by simp [h0, ha]), hf⟩

theorem fields_of_decodeFields {charW : Nat} {x : Fields} {i : Instr} (h : decodeFields charW x = .ok i) :
    x = i.fields ∧ OperandFits charW i := by
  unfold decodeFields at h
  split at h
  case isFalse => cases h
  case isTrue hm =>
    split at h
    case h_1 ho | h_2 ho | h_3 ho | h_5 ho | h_6 ho | h_8 ho => exact fields_of_noOperand h hm ho rfl trivial
    case h_4 ho =>
      obtain ⟨hb, rfl⟩ := (byteOperand_ok_iff _ _ _).mp h
      refine ⟨fields_eq_of_parts hm ho ?_, trivial⟩
      simp [Instr.fields]; omega
    case h_7 ho =>
      obtain ⟨hu, rfl⟩ := (unitOperand_ok_iff _ _ _).mp h
      refine ⟨fields_eq_of_parts hm ho ?_, trivial⟩
      simp [Instr.fields]; omega
    case h_9 ho =>
      obtain ⟨hc, rfl⟩ := (charOperand_ok_iff _ _ _ _).mp h
      exact ⟨fields_eq_of_parts hm ho rfl, hc⟩
    case h_10 => cases h

/-- The decoder inverts the encoder, and accepts nothing but the words of commands whose operand fits (R71 to R75). -/
theorem decode_ok_iff {charW : Nat} {w : Cmd} {i : Instr} : decode charW w = .ok i ↔ encode i = w ∧ OperandFits charW i := by
  constructor
  · intro h
    obtain ⟨hx, hf⟩ := fields_of_decodeFields h
    exact ⟨by rw [encode, ← hx, wordOfFields_fieldsOfWord], hf⟩
  · rintro ⟨rfl, hf⟩
    rw [decode, encode, fieldsOfWord_wordOfFields]
    exact decodeFields_fields hf

/-- At the default width every operand fits: 21 bits are what a character has. -/
theorem operandFits_default (i : Instr) : OperandFits 21 i := by
  cases i with
  | encStep c => exact c.isLt
  | _ => trivial

/-- Settles O2: the decoder accepts exactly the words of commands whose operand fits. -/
theorem decodeOfEncode : Obligations.DecodeOfEncode :=
  ⟨fun _ _ hf => decode_ok_iff.mpr ⟨rfl, hf⟩, fun i => decode_ok_iff.mpr ⟨rfl, operandFits_default i⟩⟩

/-- Settles O3: the decoder accepts exactly the words of commands whose operand fits. -/
theorem encodeOfDecode : Obligations.EncodeOfDecode := fun _ _ _ h => (decode_ok_iff.mp h).1

/-- Settles O55: both widths accept words of commands only, and at width 21 every operand fits. -/
theorem narrowCharactersOnly : Obligations.NarrowCharactersOnly := by
  intro charW w i
  have hd : OperandFits 21 i := operandFits_default i
  simp only [decode_ok_iff, hd, and_true]

/-! ## Reserved words -/

/-- A result that is no `.ok` is an error. -/
theorem exists_error_iff {ε α : Type} {r : Except ε α} : (∃ e, r = .error e) ↔ ∀ a, r ≠ .ok a := by
  cases r <;> simp

theorem noOperand_error_iff (arg : BitVec 21) (i : Instr) : (∃ e, noOperand arg i = .error e) ↔ arg.toNat ≠ 0 := by
  simp [exists_error_iff, noOperand_ok_iff]

theorem byteOperand_error_iff (arg : BitVec 21) (mk : Byte → Instr) :
    (∃ e, byteOperand arg mk = .error e) ↔ 2 ^ 8 ≤ arg.toNat := by
  simp [exists_error_iff, byteOperand_ok_iff]

theorem unitOperand_error_iff (arg : BitVec 21) (mk : CodeUnit → Instr) :
    (∃ e, unitOperand arg mk = .error e) ↔ 2 ^ 5 ≤ arg.toNat := by
  simp [exists_error_iff, unitOperand_ok_iff]

theorem charOperand_error_iff (charW : Nat) (arg : BitVec 21) (mk : CharCode → Instr) :
    (∃ e, charOperand charW arg mk = .error e) ↔ 2 ^ charW ≤ arg.toNat := by
  simp [exists_error_iff, charOperand_ok_iff]

/-- The decoder rejects exactly the reserved words (R75): the assigned operation codes one by one, then the others. -/
theorem isReserved_iff_decode_error (charW : Nat) (w : Cmd) : IsReserved charW w ↔ ∃ e, decode charW w = .error e := by
  unfold IsReserved decode
  rw [← fieldsOfWord_op, ← fieldsOfWord_mbz, ← fieldsOfWord_arg]
  generalize fieldsOfWord w = x
  unfold decodeFields
  by_cases hm : x.mbz = 0#7
  · have hm' : x.mbz.toNat = 0 := by simp [hm]
    simp only [hm, if_true]
    split
    case h_1 ho | h_2 ho | h_3 ho | h_5 ho | h_6 ho | h_8 ho => simp [ho, noOperand_error_iff]
    case h_4 ho => simp [ho, byteOperand_error_iff]
    case h_7 ho => simp [ho, unitOperand_error_iff]
    case h_9 ho => simp [ho, charOperand_error_iff]
    case h_10 =>
      have hlt := x.op.isLt
      have hop : x.op.toNat ∈ [0x0, 0x6, 0x7, 0xC, 0xD, 0xE, 0xF] := by
        simp only [imp_false, List.mem_cons, List.not_mem_nil] at *
        omega
      exact iff_of_true (.inl hop) ⟨_, rfl⟩
  · have hm' : x.mbz.toNat ≠ 0 := fun h => hm (BitVec.eq_of_toNat_eq h)
    simp [hm, hm']

/-- The step on a word the decoder rejects. -/
theorem step_of_reserved {s : State} {w : Cmd} {rest : List HostMove} (h : s.hostMoves = .command w :: rest)
    (hr : IsReserved s.cfg.charW w) : step s = reservedWord w { s with hostMoves := rest } := by
  obtain ⟨e, he⟩ := (isReserved_iff_decode_error _ _).mp hr
  rw [step_of_command h]
  simp [runWord, he]

theorem reservedWord_of_ignore {s : State} (w : Cmd) (h : s.cfg.reservedWords = .ignore) :
    reservedWord w s = .next (s.respond .none) := by
  simp [reservedWord, h]

theorem reservedWord_of_refuse {s : State} (w : Cmd) (h : s.cfg.reservedWords = .refuse) :
    reservedWord w s = .refused (.reservedWord w) := by
  simp [reservedWord, h]

theorem isReserved_zero (charW : Nat) : IsReserved charW 0 := .inl (by simp)

theorem not_isReserved_encode {charW : Nat} {i : Instr} (h : OperandFits charW i) : ¬ IsReserved charW (encode i) := by
  rw [isReserved_iff_decode_error, exists_error_iff]
  exact fun hn => hn i (decode_ok_iff.mpr ⟨rfl, h⟩)

theorem isScalar_eq_false {c : CharCode} (h : (0xD800 ≤ c.toNat ∧ c.toNat ≤ 0xDFFF) ∨ 0x10FFFF < c.toNat) :
    isScalar c = false := by
  simp [isScalar]; omega

/-- The Encoder skips a value that is no scalar value (R144, R161): the flag stays, the response is `NONE`. -/
theorem encodeChar_of_not_scalar (k : Config) (fs : Bool) {c : CharCode} (h : isScalar c = false) :
    encodeChar k fs c = (fs, .none) := by
  simp [encodeChar, encMap, h]

/-- Settles O5: the decoder rejects exactly the reserved words, so the step on one is `reservedWord`. -/
theorem reservedWordIsNoCommand : Obligations.ReservedWordIsNoCommand := by
  refine ⟨isReserved_iff_decode_error, ?_, isReserved_zero, fun c => not_isReserved_encode (operandFits_default _), ?_⟩
  · intro s w rest h hr
    rw [step_of_reserved h hr]
    exact ⟨fun hi => ⟨_, reservedWord_of_ignore w hi, rfl, rfl, rfl, ⟨rfl, rfl⟩, ⟨rfl, rfl⟩, rfl⟩,
      fun hi => reservedWord_of_refuse w hi⟩
  · intro s c hc
    have he := encodeChar_of_not_scalar s.cfg s.fsEnc (isScalar_eq_false hc)
    refine ⟨s.respond .none, ?_, rfl, ⟨rfl, rfl⟩, ⟨rfl, rfl⟩, rfl, rfl, rfl⟩
    simp only [exec, execEncStep, he]
    rfl

end Sys2Proof.Machine
end

section
/-! PROOFS. What every step keeps: the parameters (spec/10_state.md R38) and the legality of the responses
(spec/30_encoding.md R73). -/

namespace Sys2Proof.Machine

open Safety

/-! ## The response of a command -/

/-- The response a command gives (R73), read off the state before it. -/
def commandResponse (i : Instr) (s : State) : Response :=
  match i with
  | .lzZero | .lzSeed | .lzStep | .decInit | .encInit => .none
  | .lzEnc b => .byte (b ^^^ s.lorenz.keystream s.cfg)
  | .lzDraw => .snap (s.lorenz.draw s.cfg.drawSeg11)
  | .decStep v => (decodeUnit s.cfg s.fsDec v).2
  | .encStep c => (encodeChar s.cfg s.fsEnc c).2

/-- Every command gives a next state and answers once; the parameters and the host's moves stay. -/
theorem exec_answers (i : Instr) (s : State) : ∃ t, exec i s = .next t ∧ Answers s t (commandResponse i s) := by
  cases i with
  | lzSeed => exact ⟨_, rfl, by simp [commandResponse], by simp, by simp⟩
  | _ => exact ⟨_, rfl, rfl, rfl, rfl⟩

/-- What any step does to the parameters and the responses: the parameters stay, and at most one response is added, `NONE`
or that of a command carried out. -/
theorem step_cfg_responses {s t : State} (h : step s = .next t) :
    t.cfg = s.cfg ∧ (t.responses = s.responses ∨ t.responses = s.responses ++ [.none] ∨
      ∃ i rest, t.responses = s.responses ++ [commandResponse i { s with hostMoves := rest }]) := by
  obtain ⟨-, rfl⟩ | ⟨rest, -, rfl⟩ | ⟨w, rest, i, -, -, hx⟩ | ⟨w, rest, e, -, -, -, rfl⟩ := step_next_cases h
  · exact ⟨rfl, .inl rfl⟩
  · exact ⟨by simp, .inl (by simp)⟩
  · obtain ⟨u, hu, ha⟩ := exec_answers i { s with hostMoves := rest }
    obtain rfl : u = t := by simpa [hx] using hu.symm
    exact ⟨ha.cfg, .inr (.inr ⟨i, rest, ha.responses⟩)⟩
  · exact ⟨rfl, .inr (.inl rfl)⟩

/-- Settles O51: no command, no reset and no reserved word writes the parameters. -/
theorem parametersNeverChange : Obligations.ParametersNeverChange := fun _ _ h => (step_cfg_responses h).1

/-! ## Legal responses -/

theorem isControl_iff {v : CodeUnit} : IsControl v ↔ v = figsCode ∨ v = ltrsCode := Iff.rfl

variable {k : Config}

/-- (T2) of R141, read backwards: a code with an entry is no shift control. -/
theorem not_isControl_of_entry (wf : k.WellFormed) {v : CodeUnit} {c : CharCode}
    (h : entry k.ltrs v = some c ∨ entry k.figs v = some c) : ¬ IsControl v := by
  intro hv
  obtain ⟨hl, hf⟩ := wf.entry_control (isControl_iff.mp hv)
  simp [hl, hf] at h

theorem entry_of_encMap (wf : k.WellFormed) {c : CharCode} {v : CodeUnit} {cl : CharClass}
    (h : encMap k c = some (v, cl)) : entry k.ltrs v = some c ∨ entry k.figs v = some c := by
  obtain ⟨-, he⟩ | ⟨u, -, hs, he⟩ | ⟨u, -, -, hl, he⟩ | ⟨u, -, -, -, hf, he⟩ | ⟨-, -, -, -, he⟩ := encMap_cases k c
  · simp [he] at h
  · obtain ⟨rfl, -⟩ : u = v ∧ _ := by simpa [he] using h
    exact .inl (wf.entry_shared hs).1
  · obtain ⟨rfl, -⟩ : u = v ∧ _ := by simpa [he] using h
    exact .inl hl
  · obtain ⟨rfl, -⟩ : u = v ∧ _ := by simpa [he] using h
    exact .inr hf
  · simp [he] at h

theorem entry_of_activeTable {fs : Bool} {v : CodeUnit} {c : CharCode} (h : entry (activeTable k fs) v = some c) :
    entry k.ltrs v = some c ∨ entry k.figs v = some c := by
  cases fs with
  | false => exact .inl h
  | true => exact .inr h

/-- The Decoder answers `NONE` or a character of a table (R151). -/
theorem decodeUnit_legal (wf : k.WellFormed) (fs : Bool) (v : CodeUnit) : Legal k.charW (decodeUnit k fs v).2 := by
  obtain ⟨-, he⟩ | ⟨-, he⟩ | ⟨-, -, -, he⟩ | ⟨c, -, -, hc, he⟩ := decodeUnit_cases k fs v
  · rw [he]; trivial
  · rw [he]; trivial
  · rw [he]; trivial
  · rw [he]
    have hc' := entry_of_activeTable hc
    exact ⟨wf.entry_scalar hc', wf.entry_fits hc'⟩

/-- The Encoder answers `NONE`, a code with an entry, or a shift control and such a code (R161). -/
theorem encodeChar_legal (wf : k.WellFormed) (fs : Bool) (c : CharCode) : Legal k.charW (encodeChar k fs c).2 := by
  cases hm : encMap k c with
  | none => simp [encodeChar, hm, Legal]
  | some p =>
    obtain ⟨v, cl⟩ := p
    have hv : ¬ IsControl v := not_isControl_of_entry wf (entry_of_encMap wf hm)
    cases cl with
    | shared => simpa [encodeChar, hm, Legal] using hv
    | letters =>
      have hl : IsControl ltrsCode := .inr rfl
      cases fs <;> simp [encodeChar, hm, Legal, hv, hl]
    | figures =>
      have hf : IsControl figsCode := .inl rfl
      cases fs <;> simp [encodeChar, hm, Legal, hv, hf]

theorem commandResponse_legal {s : State} (wf : s.cfg.WellFormed) (i : Instr) :
    Legal s.cfg.charW (commandResponse i s) := by
  cases i with
  | decStep v => exact decodeUnit_legal wf _ v
  | encStep c => exact encodeChar_legal wf _ c
  | _ => trivial

theorem legal_snoc {charW : Nat} {rs : List Response} {r : Response} (hrs : ∀ x ∈ rs, Legal charW x) (hr : Legal charW r) :
    ∀ x ∈ rs ++ [r], Legal charW x :=
  List.forall_mem_append.mpr ⟨hrs, List.forall_mem_singleton.mpr hr⟩

/-- Settles O45: the parameters stay, and the response a step adds is legal under well-formed ones. -/
theorem stepKeepsInv : Obligations.StepKeepsInv := by
  intro s t ⟨wf, hlegal⟩ h
  obtain ⟨hcfg, hresp⟩ := step_cfg_responses h
  unfold Safety.Inv
  rw [hcfg]
  refine ⟨wf, ?_⟩
  obtain hr | hr | ⟨i, rest, hr⟩ := hresp
  · rw [hr]; exact hlegal
  · rw [hr]; exact legal_snoc hlegal trivial
  · rw [hr]; exact legal_snoc hlegal (commandResponse_legal (s := { s with hostMoves := rest }) wf i)

end Sys2Proof.Machine
end

section
/-! PROOFS. The reset that seeds the wheels (spec/70_reset_and_hazards.md R190) and the seed offsets (spec/10_state.md R22). -/

namespace Sys2Proof.Machine

open Safety

/-- The offsets the statements list (R22, R117) are those of the machine. -/
theorem seedBase_eq_baseOf (w : WheelName) : seedBase w = baseOf w := by cases w <;> rfl

/-- Settles O10: the reset samples `RND` once and loads every wheel from its slice. -/
theorem hostResetSeeds : Obligations.HostResetSeeds := by
  intro s rest h hrandom
  let s' : State := { s with hostMoves := rest }
  have hstep : step s = .next s'.hostReset := step_of_reset h
  rw [State.hostReset_random (s := s') hrandom] at hstep
  refine ⟨_, s'.rnd, hstep, ?_, randomLorenz_head _, rfl, rfl, ?_, ?_, ?_, ?_, ?_⟩
  · intro w n hn
    rw [seedBase_eq_baseOf]
    exact randomLorenz_cell _ w n hn
  · exact s'.rndTaken_responses
  · exact s'.rndTaken_hostMoves
  · exact s'.rndTaken_cfg
  · exact fun r' more hs => State.rnd_presented (s := s') hs
  · exact fun hs => State.rnd_free (s := s') hs

/-- Settles O13: by evaluating the twelve sums. -/
theorem basesAreLengthSums : Obligations.BasesAreLengthSums := by
  have sums : ∀ n : Fin 12, seedBase WheelName.all[n] = ((WheelName.all.take n).map WheelName.len).sum := by decide
  refine ⟨fun n w h => ?_, rfl⟩
  obtain ⟨hn, rfl⟩ := List.getElem?_eq_some_iff.mp h
  exact sums ⟨n, hn⟩

end Sys2Proof.Machine
end

section
/-! PROOFS. What a command writes (spec/10_state.md R23 to R28), said once, and what follows for the wheels and the flags. -/

namespace Sys2Proof.Machine

/-- What a command leaves behind, before its response is added: the state it writes, read off the state before it. -/
def commandState (i : Instr) (s : State) : State :=
  match i with
  | .lzZero => s.loadZeroed
  | .lzSeed => s.loadRandom
  | .lzStep => s.setLorenz s.lorenz.stepMachine
  | .lzEnc _ | .lzDraw => s
  | .decInit => s.setFsDec false
  | .decStep v => s.setFsDec (decodeUnit s.cfg s.fsDec v).1
  | .encInit => s.setFsEnc false
  | .encStep c => s.setFsEnc (encodeChar s.cfg s.fsEnc c).1

/-- Every command writes its state and answers once. -/
theorem exec_eq (i : Instr) (s : State) : exec i s = .next ((commandState i s).respond (commandResponse i s)) := by
  cases i <;> rfl

end Sys2Proof.Machine
end

section
/-! PROOFS. The representation of a wheel is never observable (spec/10_state.md R21, R34): every operation of the block answers
alike on equal `as_array`s and keeps them equal. -/

namespace Sys2Proof.Machine

/-! ## One wheel -/

section
variable {n : Nat} {x y : Wheel n}

/-- Element `j` of `as_array` after a step is the element one position further round before it (R92, R94). -/
theorem Wheel.stepClockwise_at (x : Wheel n) (j : Nat) : x.stepClockwise.at j = x.at (j + 1) := by
  rw [at_eq, at_eq, stepClockwise_cells, stepClockwise_head, Nat.mod_add_mod, Nat.add_assoc, Nat.add_comm 1 j]

theorem Wheel.at_mod (x : Wheel n) (j : Nat) : x.at (j % n) = x.at j := by
  rw [at_eq, at_eq, Nat.add_mod_mod]

/-- Equal `as_array`s are equal at every index, also beyond the length, where both wrap round (R94). -/
theorem Wheel.asArray_eq_iff : x.asArray = y.asArray ↔ ∀ j, x.at j = y.at j := by
  constructor
  · intro h j
    have hj : j % n < n := Nat.mod_lt _ (Nat.zero_lt_of_lt x.head.isLt)
    have he : some (x.at (j % n)) = some (y.at (j % n)) := by
      rw [← asArray_getElem? x _ hj, ← asArray_getElem? y _ hj, h]
    rw [← x.at_mod, ← y.at_mod]
    exact Option.some.inj he
  · intro h
    rw [asArray, asArray, funext h]

theorem Wheel.stepClockwise_asArray_congr (h : x.asArray = y.asArray) :
    x.stepClockwise.asArray = y.stepClockwise.asArray := by
  rw [asArray_eq_iff] at h ⊢
  intro j
  rw [stepClockwise_at, stepClockwise_at, h]

theorem Wheel.readHead_congr (h : x.asArray = y.asArray) : x.readHead = y.readHead := by
  rw [readHead_eq_at_zero, readHead_eq_at_zero, asArray_eq_iff.mp h]

end

/-! ## The heads of the banks -/

theorem Lorenz.psi_headBits (m : Lorenz) :
    m.psi.headBits = fiveBits (m.wheel .a).readHead (m.wheel .b).readHead (m.wheel .c).readHead (m.wheel .d).readHead
      (m.wheel .e).readHead := rfl

theorem Lorenz.chi_headBits (m : Lorenz) :
    m.chi.headBits = fiveBits (m.wheel .h).readHead (m.wheel .i).readHead (m.wheel .j).readHead (m.wheel .k).readHead
      (m.wheel .l).readHead := rfl

/-- The keystream reads the heads of Psi and Chi and nothing else (R107, R109, R121). -/
theorem Lorenz.keystream_congr {m n : Lorenz} (k : Config)
    (h : ∀ w, w ≠ .f → w ≠ .g → (m.wheel w).readHead = (n.wheel w).readHead) : m.keystream k = n.keystream k := by
  have hpsi : m.psi.headBits = n.psi.headBits := by
    rw [psi_headBits, psi_headBits, h .a nofun nofun, h .b nofun nofun, h .c nofun nofun, h .d nofun nofun,
      h .e nofun nofun]
  have hchi : m.chi.headBits = n.chi.headBits := by
    rw [chi_headBits, chi_headBits, h .h nofun nofun, h .i nofun nofun, h .j nofun nofun, h .k nofun nofun,
      h .l nofun nofun]
  rw [keystream, keystream, Psi.readAll, Psi.readAll, Chi.readAll, Chi.readAll, hpsi, hchi]

end Sys2Proof.Machine

namespace Sys2Proof.Safety

open Machine

/-! ## The machine -/

section
variable {m n : Lorenz}

theorem SameArrays.refl (m : Lorenz) : SameArrays m m := fun _ => rfl

theorem SameArrays.readHead (h : SameArrays m n) (w : WheelName) : (m.wheel w).readHead = (n.wheel w).readHead :=
  Wheel.readHead_congr (h w)

/-- Which wheels a tick moves is read off the Mu heads (R118). -/
theorem SameArrays.moves (h : SameArrays m n) : m.moves = n.moves := by
  have hf : m.mu.f.readHead = n.mu.f.readHead := h.readHead .f
  have hg : m.mu.g.readHead = n.mu.g.readHead := h.readHead .g
  funext w
  cases w <;> simp only [Lorenz.moves, hf, hg]

theorem SameArrays.stepMachine (h : SameArrays m n) : SameArrays m.stepMachine n.stepMachine := by
  intro w
  rw [Lorenz.stepMachine_wheel, Lorenz.stepMachine_wheel, h.moves]
  split
  · exact Wheel.stepClockwise_asArray_congr (h w)
  · exact h w

theorem SameArrays.keystream (h : SameArrays m n) (k : Config) : m.keystream k = n.keystream k :=
  Lorenz.keystream_congr k fun w _ _ => h.readHead w

theorem SameArrays.draw (h : SameArrays m n) (src : Seg11Source) : m.draw src = n.draw src := by
  have hseg : m.segment = n.segment := by
    funext w s
    rw [Lorenz.segment, Lorenz.segment, h w]
  rw [Lorenz.draw, Lorenz.draw, Lorenz.drawBuffer, Lorenz.drawBuffer, hseg]

end

/-! ## The operations over the state -/

section
variable {s t : State}

theorem ObsEq.withHostMoves (h : ObsEq s t) (ms : List HostMove) :
    ObsEq { s with hostMoves := ms } { t with hostMoves := ms } :=
  { h with hostMoves := rfl }

theorem ObsEq.setLorenz (h : ObsEq s t) {m n : Lorenz} (hmn : SameArrays m n) : ObsEq (s.setLorenz m) (t.setLorenz n) :=
  { h with arrays := hmn }

theorem ObsEq.setFsDec (h : ObsEq s t) (b : Bool) : ObsEq (s.setFsDec b) (t.setFsDec b) := { h with fsDec := rfl }

theorem ObsEq.setFsEnc (h : ObsEq s t) (b : Bool) : ObsEq (s.setFsEnc b) (t.setFsEnc b) := { h with fsEnc := rfl }

theorem ObsEq.respond (h : ObsEq s t) (r : Response) : ObsEq (s.respond r) (t.respond r) :=
  { h with responses := by simp [h.responses] }

theorem ObsEq.rnd (h : ObsEq s t) : s.rnd = t.rnd := by simp only [State.rnd, h.seeds, h.draws]

theorem ObsEq.rndTaken (h : ObsEq s t) : ObsEq s.rndTaken t.rndTaken := by
  cases hs : s.seeds with
  | nil =>
    have ht : t.seeds = [] := h.seeds ▸ hs
    simp only [State.rndTaken, hs, ht]
    exact { h with seeds := rfl, draws := congrArg (· + 1) h.draws }
  | cons r more =>
    have ht : t.seeds = r :: more := h.seeds ▸ hs
    simp only [State.rndTaken, hs, ht]
    exact { h with seeds := rfl }

theorem ObsEq.loadZeroed (h : ObsEq s t) : ObsEq s.loadZeroed t.loadZeroed := h.setLorenz (.refl _)

theorem ObsEq.loadRandom (h : ObsEq s t) : ObsEq s.loadRandom t.loadRandom := by
  rw [State.loadRandom, State.loadRandom, h.rnd]
  exact h.rndTaken.setLorenz (.refl _)

theorem ObsEq.hostReset (h : ObsEq s t) : ObsEq s.hostReset t.hostReset := by
  unfold State.hostReset
  rw [h.cfg]
  split
  · exact (h.loadZeroed.setFsDec false).setFsEnc false
  · exact (h.loadRandom.setFsDec false).setFsEnc false

/-! ## The commands and the step -/

theorem ObsEq.commandResponse (h : ObsEq s t) (i : Instr) : commandResponse i s = commandResponse i t := by
  cases i with
  | lzEnc b => simp only [Machine.commandResponse, h.cfg, h.arrays.keystream]
  | lzDraw => simp only [Machine.commandResponse, h.cfg, h.arrays.draw]
  | decStep v => simp only [Machine.commandResponse, h.cfg, h.fsDec]
  | encStep c => simp only [Machine.commandResponse, h.cfg, h.fsEnc]
  | _ => rfl

theorem ObsEq.commandState (h : ObsEq s t) (i : Instr) : ObsEq (commandState i s) (commandState i t) := by
  cases i with
  | lzZero => exact h.loadZeroed
  | lzSeed => exact h.loadRandom
  | lzStep => exact h.setLorenz h.arrays.stepMachine
  | lzEnc | lzDraw => exact h
  | decInit => exact h.setFsDec false
  | decStep v =>
    simp only [Machine.commandState, h.cfg, h.fsDec]
    exact h.setFsDec _
  | encInit => exact h.setFsEnc false
  | encStep c =>
    simp only [Machine.commandState, h.cfg, h.fsEnc]
    exact h.setFsEnc _

/-- Two states that differ only in representation answer the next move alike and differ only so after it. -/
theorem ObsEq.step {s' : State} (h : ObsEq s t) (hs : step s = .next s') : ∃ t', step t = .next t' ∧ ObsEq s' t' := by
  obtain ⟨hm, rfl⟩ | ⟨rest, hm, rfl⟩ | ⟨w, rest, i, hm, hd, hx⟩ | ⟨w, rest, e, hm, hd, hig, rfl⟩ :=
    step_next_cases hs
  · refine ⟨t, ?_, h⟩
    simp [Machine.step, State.nextMove, ← h.hostMoves, hm]
  · exact ⟨_, step_of_reset (h.hostMoves ▸ hm), (h.withHostMoves rest).hostReset⟩
  · have h' := h.withHostMoves rest
    rw [exec_eq] at hx
    injection hx with hx
    subst hx
    rw [h.cfg] at hd
    refine ⟨_, ?_, (h'.commandState i).respond _⟩
    rw [step_of_command (h.hostMoves ▸ hm), h'.commandResponse, ← exec_eq]
    simp [runWord, hd]
  · refine ⟨_, ?_, (h.withHostMoves rest).respond .none⟩
    rw [h.cfg] at hd hig
    rw [step_of_command (h.hostMoves ▸ hm), ← reservedWord_of_ignore (s := { t with hostMoves := rest }) w hig]
    simp [runWord, hd]

end

/-- Settles O30, by induction on the number of steps: `ObsEq` is a bisimulation. -/
theorem representationIsInvisible : Obligations.RepresentationIsInvisible := by
  intro k
  induction k with
  | zero =>
    intro s₁ s₂ t₁ h hr
    injection hr with hr
    subst hr
    exact ⟨s₂, rfl, h⟩
  | succ k ih =>
    intro s₁ s₂ t₁ h hr
    cases hs : step s₁ with
    | next u₁ =>
      obtain ⟨u₂, hu₂, hu⟩ := h.step hs
      rw [runSteps_succ hs] at hr
      rw [runSteps_succ hu₂]
      exact ih u₁ u₂ t₁ hu hr
    | fault r => cases r
    | refused r => simp [runSteps, hs] at hr

end Sys2Proof.Safety
end

section
/-! PROOFS. The cells as reset and seed load them (spec/10_state.md R22, R36, R37). -/

namespace Sys2Proof.Machine

open Safety

theorem State.reset_lorenz : State.reset.lorenz = zeroedLorenz := rfl

/-- Settles O11: the reset machine is the zeroed one. -/
theorem resetStateValues : Obligations.ResetStateValues := by
  refine ⟨fun w n _ => ?_, zeroedLorenz_head, rfl, rfl⟩
  rw [State.reset_lorenz, zeroedLorenz_cells]
  exact BitVec.getLsbD_zero

theorem encode_injective {i j : Instr} (h : encode i = encode j) : i = j := by
  have hi := decodeOfEncode.2 i
  rw [h, decodeOfEncode.2 j] at hi
  injection hi with hi
  exact hi.symm

/-- Settles O48: only the word of `LZ.SEED` decodes to it, and it is not among the words presented. -/
theorem resetIsZeroForever : Obligations.ResetIsZeroForever := by
  refine fun is hseed => ⟨zeroedLorenz_cells, fun w hw hd => hseed ?_, rfl⟩
  obtain ⟨i, hi, he⟩ := List.mem_map.mp hw
  injection he with he
  obtain rfl : Instr.lzSeed = i := encode_injective ((encodeOfDecode _ _ _ hd).trans he.symm)
  exact hi

/-! ## Seeding -/

theorem exec_lzSeed (s : State) : exec .lzSeed s = .next (s.loadRandom.respond .none) := rfl

theorem Wheel.at_of_head_eq_zero {n : Nat} {x : Wheel n} (h : (x.head : Nat) = 0) {j : Nat} (hj : j < n) :
    x.at j = x.cells.getLsbD j := by
  rw [at_eq, h, Nat.zero_add, Nat.mod_eq_of_lt hj]

/-- Settles O15: every wheel is loaded from its slice of the one sample, with its head at cell 0. -/
theorem lzSeedLoadsRnd : Obligations.LzSeedLoadsRnd := by
  intro s
  have hcell : ∀ (w : WheelName) (n : Nat), n < w.len →
      ((randomLorenz s.rnd).wheel w).cells.getLsbD n = s.rnd.getLsbD (seedBase w + n) := by
    intro w n hn
    rw [seedBase_eq_baseOf]
    exact randomLorenz_cell _ w n hn
  have hat : ∀ (w : WheelName) (n : Nat), n < w.len →
      ((randomLorenz s.rnd).wheel w).asArray[n]? = some (s.rnd.getLsbD (seedBase w + n)) := by
    intro w n hn
    rw [Wheel.asArray_getElem? _ n hn, Wheel.at_of_head_eq_zero (randomLorenz_head _ w) hn, hcell w n hn]
  obtain ⟨t, ht, hans⟩ := exec_answers .lzSeed s
  obtain rfl : s.loadRandom.respond .none = t := by simpa [exec_lzSeed] using ht
  refine ⟨_, s.rnd, ht, ?_, ?_, ?_, ⟨?_, ?_⟩, hans, fun _ _ hs => State.rnd_presented hs, State.rnd_free⟩
  · simpa using hcell
  · simpa using randomLorenz_head s.rnd
  · simpa using hat
  · simp
  · simp

theorem randomLorenz_cells (r : Seed) (w : WheelName) :
    ((randomLorenz r).wheel w).cells = r.extractLsb' (baseOf w) w.len := by
  cases w <;> rfl

/-- The value of `RND` whose slices are the cells of the twelve wheels, wheel `a` in the lowest bits (R22). -/
def seedOf (m : Lorenz) : Seed :=
  (m.chi.l.cells ++ m.chi.k.cells ++ m.chi.j.cells ++ m.chi.i.cells ++ m.chi.h.cells ++ m.mu.g.cells ++ m.mu.f.cells ++
    m.psi.e.cells ++ m.psi.d.cells ++ m.psi.c.cells ++ m.psi.b.cells ++ m.psi.a.cells).cast rfl

/-- The twelve slices cover `RND`: the machine seeded from a value determines it (R22). -/
theorem seedOf_randomLorenz (r : Seed) : seedOf (randomLorenz r) = r := by
  simp (disch := rfl) only [seedOf, randomLorenz, newRandom, baseOf,
    BitVec.extractLsb'_append_extractLsb'_eq_extractLsb', BitVec.cast_eq]
  exact BitVec.extractLsb'_eq_self

/-- The twelve slices do not overlap: any cells can be loaded (R22). -/
theorem seedOf_extractLsb' (m : Lorenz) (w : WheelName) :
    (seedOf m).extractLsb' (baseOf w) w.len = (m.wheel w).cells := by
  cases w <;>
    simp (disch := decide) only [seedOf, baseOf, WheelName.len, Lorenz.wheel, BitVec.extractLsb'_cast,
      BitVec.extractLsb'_append_eq_of_le, BitVec.extractLsb'_append_eq_of_add_le] <;>
    exact BitVec.extractLsb'_eq_self

theorem Wheel.eq_of_cells_head {n : Nat} {x y : Wheel n} (hc : x.cells = y.cells) (hh : (x.head : Nat) = y.head) :
    x = y := by
  cases x; cases y
  simp_all [Fin.ext_iff]

theorem randomLorenz_seedOf {m : Lorenz} (h : ∀ w, ((m.wheel w).head : Nat) = 0) : randomLorenz (seedOf m) = m := by
  refine Lorenz.ext_wheel fun w => Wheel.eq_of_cells_head ?_ ?_
  · rw [randomLorenz_cells, seedOf_extractLsb']
  · rw [randomLorenz_head, h]

/-- Settles O16: `seedOf` and `randomLorenz` are inverse to each other. -/
theorem seedBitsUsedOnce : Obligations.SeedBitsUsedOnce := by
  intro s m more hheads
  have hexec (r : Seed) :
      (∃ t, exec .lzSeed { s with seeds := r :: more } = .next t ∧ t.lorenz = m) ↔ randomLorenz r = m := by
    simp [exec_lzSeed, State.rnd]
  simp only [hexec]
  refine ⟨seedOf m, randomLorenz_seedOf hheads, ?_⟩
  rintro r rfl
  exact (seedOf_randomLorenz r).symm

end Sys2Proof.Machine
end

section
/-! PROOFS. The rotation of a wheel: when a bank is back together (spec/10_state.md R22), and the split representation (R35). -/

namespace Sys2Proof.Machine

/-! ## Realignment -/

/-- `k` steps bring a wheel back exactly when its length divides `k` (R92). -/
theorem Wheel.iterate_stepClockwise_eq_self_iff {n : Nat} (x : Wheel n) (k : Nat) :
    Wheel.stepClockwise^[k] x = x ↔ n ∣ k := by
  have hback : (x.head + k) % n = x.head ↔ n ∣ k := by
    rw [← Nat.add_modEq_left_iff (a := x.head), Nat.ModEq, Nat.mod_eq_of_lt x.head.isLt]
  rw [← hback, ← iterate_stepClockwise_head]
  exact ⟨fun h => by rw [h], Wheel.eq_of_cells_head (x.iterate_stepClockwise_cells k)⟩

/-- The wheels of a bank step independently (R106). -/
theorem Psi.iterate_stepAll (p : Psi) (k : Nat) :
    Psi.stepAll^[k] p =
      { a := Wheel.stepClockwise^[k] p.a, b := Wheel.stepClockwise^[k] p.b, c := Wheel.stepClockwise^[k] p.c,
        d := Wheel.stepClockwise^[k] p.d, e := Wheel.stepClockwise^[k] p.e } := by
  induction k generalizing p with
  | zero => rfl
  | succ k ih => exact ih p.stepAll

/-- The wheels of a bank step independently (R106). -/
theorem Chi.iterate_stepAll (x : Chi) (k : Nat) :
    Chi.stepAll^[k] x =
      { h := Wheel.stepClockwise^[k] x.h, i := Wheel.stepClockwise^[k] x.i, j := Wheel.stepClockwise^[k] x.j,
        k := Wheel.stepClockwise^[k] x.k, l := Wheel.stepClockwise^[k] x.l } := by
  induction k generalizing x with
  | zero => rfl
  | succ k ih => exact ih x.stepAll

/-- The lengths of the Psi wheels have no common factors, so their product is their least common multiple. -/
theorem psi_lengths_dvd_iff (k : Nat) :
    43 * 47 * 51 * 53 * 59 ∣ k ↔ 43 ∣ k ∧ 47 ∣ k ∧ 51 ∣ k ∧ 53 ∣ k ∧ 59 ∣ k := by
  have hlcm : 43 * 47 * 51 * 53 * 59 = Nat.lcm 43 (Nat.lcm 47 (Nat.lcm 51 (Nat.lcm 53 59))) := by decide
  simp only [hlcm, Nat.lcm_dvd_iff]

/-- The lengths of the Chi wheels have no common factors, so their product is their least common multiple. -/
theorem chi_lengths_dvd_iff (k : Nat) :
    41 * 31 * 29 * 26 * 23 ∣ k ↔ 41 ∣ k ∧ 31 ∣ k ∧ 29 ∣ k ∧ 26 ∣ k ∧ 23 ∣ k := by
  have hlcm : 41 * 31 * 29 * 26 * 23 = Nat.lcm 41 (Nat.lcm 31 (Nat.lcm 29 (Nat.lcm 26 23))) := by decide
  simp only [hlcm, Nat.lcm_dvd_iff]

/-- Settles O25: each wheel is back after the multiples of its length, and the lengths of a bank are coprime. -/
theorem banksRealign : Obligations.BanksRealign := by
  constructor
  · rintro ⟨a, b, c, d, e⟩ k
    rw [psi_lengths_dvd_iff, Psi.iterate_stepAll, Psi.mk.injEq]
    simp only [Wheel.iterate_stepClockwise_eq_self_iff]
  · rintro ⟨h, i, j, l, m⟩ k
    rw [chi_lengths_dvd_iff, Chi.iterate_stepAll, Chi.mk.injEq]
    simp only [Wheel.iterate_stepClockwise_eq_self_iff]

/-- `as_array` is the list of the cells, rotated so that the cell under the head comes first (R94). -/
theorem Wheel.asArray_eq_rotate {n : Nat} (x : Wheel n) :
    x.asArray = ((List.range n).map x.cells.getLsbD).rotate x.head := by
  refine List.ext_getElem (by simp) fun j h₁ h₂ => ?_
  simp [asArray, at_eq, List.getElem_rotate, Nat.add_comm]

end Sys2Proof.Machine

namespace Sys2Proof.Safety

open Machine

/-! ## The split wheel -/

/-- The split wheel over the cells `l` once `j` of them have passed the head (R35). -/
def SplitWheel.turned (l : List Bool) (j : Nat) : SplitWheel := { front := (l.drop j).reverse, rear := l.take j }

section
variable {l : List Bool} {j : Nat}

theorem SplitWheel.ofCells_eq_turned (l : List Bool) : ofCells l = turned l 0 := rfl

theorem SplitWheel.turned_asArray (l : List Bool) (j : Nat) : (turned l j).asArray = l.drop j ++ l.take j := by
  simp [turned, SplitWheel.asArray]

theorem SplitWheel.turned_readHead (l : List Bool) (j : Nat) : (turned l j).readHead = l[j]? := by
  simp [turned, SplitWheel.readHead]

theorem SplitWheel.turned_front_ne_nil (hj : j < l.length) : (turned l j).front ≠ [] := by
  simpa [turned] using hj

theorem SplitWheel.turned_length (hj : j ≤ l.length) :
    (turned l j).front.length + (turned l j).rear.length = l.length := by
  simp [turned]; omega

/-- A step passes one cell more; when the last one has passed, renormalisation starts the next turn (R35). -/
theorem SplitWheel.stepClockwise_turned (hj : j < l.length) :
    (turned l j).stepClockwise = turned l ((j + 1) % l.length) := by
  have hpass : (turned l j).stepClockwise = (turned l (j + 1)).renormalise := by
    simp [SplitWheel.stepClockwise, turned, hj]
  rw [hpass]
  by_cases hlast : j + 1 = l.length
  · simp [renormalise, turned, hlast]
  · have hlt : j + 1 < l.length := by omega
    rw [renormalise, if_neg (turned_front_ne_nil hlt), Nat.mod_eq_of_lt hlt]

theorem SplitWheel.iterate_stepClockwise_ofCells (hl : 0 < l.length) (k : Nat) :
    SplitWheel.stepClockwise^[k] (ofCells l) = turned l (k % l.length) := by
  induction k with
  | zero => rw [Nat.zero_mod]; rfl
  | succ k ih =>
    rw [Function.iterate_succ_apply', ih, stepClockwise_turned (Nat.mod_lt k hl), Nat.mod_add_mod]

end

/-- Settles O29: both representations have passed `k` modulo the length cells. -/
theorem splitWheelRefines : Obligations.SplitWheelRefines := by
  intro n _ cells k x y
  have hx : (x.head : Nat) = k % n := by
    simp [x, Wheel.iterate_stepClockwise_head]
  have hk : k % n < n := Nat.mod_lt k (NeZero.pos n)
  have hcells : x.cells = cells := Wheel.iterate_stepClockwise_cells _ k
  have hlen : ((List.range n).map cells.getLsbD).length = n := by simp
  have hy : y = .turned ((List.range n).map cells.getLsbD) (k % n) := by
    have h := SplitWheel.iterate_stepClockwise_ofCells (hlen.symm ▸ NeZero.pos n) k
    rwa [hlen] at h
  rw [hy]
  refine ⟨?_, ?_, SplitWheel.turned_front_ne_nil (by simpa using hk), ?_⟩
  · rw [SplitWheel.turned_asArray, Wheel.asArray_eq_rotate, hx, hcells, List.rotate_eq_drop_append_take (by simpa using hk.le)]
  · simp [SplitWheel.turned_readHead, Wheel.readHead, hx, hcells, hk]
  · rw [SplitWheel.turned_length (by simpa using hk.le), hlen]

end Sys2Proof.Safety
end

section
/-! PROOFS. Who writes what (spec/10_state.md R23 to R28): the causes of a change of the wheels and of the flags, and what the
commands do not read. -/

namespace Sys2Proof.Machine

open Safety

/-! ## The causes of a change -/

/-- A step leaves wheels and flags alone, or is the reset, or carries out the command whose word the host presents. -/
theorem step_cause {s t : State} (h : step s = .next t) :
    (t.lorenz = s.lorenz ∧ t.fsDec = s.fsDec ∧ t.fsEnc = s.fsEnc) ∨
    (∃ rest, s.hostMoves = .reset :: rest) ∨
    (∃ i rest, s.hostMoves = .command (encode i) :: rest ∧
      t = (commandState i { s with hostMoves := rest }).respond (commandResponse i { s with hostMoves := rest })) := by
  obtain ⟨-, rfl⟩ | ⟨rest, hm, -⟩ | ⟨w, rest, i, hm, hd, hx⟩ | ⟨w, rest, e, -, -, -, rfl⟩ := step_next_cases h
  · exact .inl ⟨rfl, rfl, rfl⟩
  · exact .inr (.inl ⟨rest, hm⟩)
  · obtain ⟨rfl, -⟩ := decode_ok_iff.mp hd
    rw [exec_eq] at hx
    injection hx with hx
    exact .inr (.inr ⟨i, rest, hm, hx.symm⟩)
  · exact .inl ⟨rfl, rfl, rfl⟩

theorem commandState_lorenz_cases (i : Instr) (s : State) :
    (commandState i s).lorenz = s.lorenz ∨ i = .lzZero ∨ i = .lzSeed ∨
      (i = .lzStep ∧ (commandState i s).lorenz = s.lorenz.stepMachine) := by
  cases i with
  | lzZero => exact .inr (.inl rfl)
  | lzSeed => exact .inr (.inr (.inl rfl))
  | lzStep => exact .inr (.inr (.inr ⟨rfl, rfl⟩))
  | _ => exact .inl rfl

theorem Lorenz.stepMachine_cells (m : Lorenz) (w : WheelName) : (m.stepMachine.wheel w).cells = (m.wheel w).cells := by
  rw [stepMachine_wheel]
  split <;> rfl

/-- Settles O49: `LZ.STEP` is the only other command that touches the wheels, and it keeps the cells. -/
theorem cellsChangeOnlyByConstruction : Obligations.CellsChangeOnlyByConstruction := by
  intro s t w h
  obtain ⟨hl, -, -⟩ | ⟨rest, hm⟩ | ⟨i, rest, hm, rfl⟩ := step_cause h
  · simp [hl]
  · exact ⟨fun _ => ⟨rest, .inl hm⟩, fun _ => ⟨rest, .inl hm⟩⟩
  · rw [State.respond_lorenz]
    obtain hl | rfl | rfl | ⟨rfl, hl⟩ := commandState_lorenz_cases i { s with hostMoves := rest }
    · simp [hl]
    · exact ⟨fun _ => ⟨rest, .inr (.inl hm)⟩, fun _ => ⟨rest, .inr (.inl hm)⟩⟩
    · exact ⟨fun _ => ⟨rest, .inr (.inr hm)⟩, fun _ => ⟨rest, .inr (.inr (.inl hm))⟩⟩
    · refine ⟨fun hc => absurd ?_ hc, fun _ => ⟨rest, .inr (.inr (.inr hm))⟩⟩
      rw [hl, Lorenz.stepMachine_cells]

theorem commandState_fsDec_cases (i : Instr) (s : State) :
    (commandState i s).fsDec = s.fsDec ∨ i = .decInit ∨ i = .decStep 0x1B ∨ i = .decStep 0x1F := by
  cases i with
  | lzSeed => exact .inl s.loadRandom_fsDec
  | decInit => exact .inr (.inl rfl)
  | decStep v =>
    obtain ⟨rfl, -⟩ | ⟨rfl, -⟩ | ⟨-, -, -, hd⟩ | ⟨c, -, -, -, hd⟩ := decodeUnit_cases s.cfg s.fsDec v
    · exact .inr (.inr (.inl rfl))
    · exact .inr (.inr (.inr rfl))
    · exact .inl (congrArg Prod.fst hd)
    · exact .inl (congrArg Prod.fst hd)
  | _ => exact .inl rfl

/-- The Encoder keeps its flag or answers a pair (R161). -/
theorem encodeChar_cases (k : Config) (fs : Bool) (c : CharCode) :
    (encodeChar k fs c).1 = fs ∨ ∃ u v, (encodeChar k fs c).2 = .unit2 u v := by
  match hm : encMap k c with
  | none => simp [encodeChar, hm]
  | some (v, .shared) => simp [encodeChar, hm]
  | some (v, .letters) => cases fs <;> simp [encodeChar, hm]
  | some (v, .figures) => cases fs <;> simp [encodeChar, hm]

theorem commandState_fsEnc_cases (i : Instr) (s : State) :
    (commandState i s).fsEnc = s.fsEnc ∨ i = .encInit ∨
      ∃ c u v, i = .encStep c ∧ commandResponse i s = .unit2 u v := by
  cases i with
  | lzSeed => exact .inl s.loadRandom_fsEnc
  | encInit => exact .inr (.inl rfl)
  | encStep c =>
    obtain hk | ⟨u, v, hp⟩ := encodeChar_cases s.cfg s.fsEnc c
    · exact .inl hk
    · exact .inr (.inr ⟨c, u, v, rfl, hp⟩)
  | _ => exact .inl rfl

theorem commandState_responses (i : Instr) (s : State) : (commandState i s).responses = s.responses := by
  cases i with
  | lzSeed => exact s.loadRandom_responses
  | _ => rfl

/-- Settles O50: from the causes of a change of either flag. -/
theorem flagsChangeOnlyByTheirCodec : Obligations.FlagsChangeOnlyByTheirCodec := by
  intro s t h
  obtain ⟨-, hd, he⟩ | ⟨rest, hm⟩ | ⟨i, rest, hm, rfl⟩ := step_cause h
  · simp [hd, he]
  · exact ⟨fun _ => ⟨rest, .inl hm⟩, fun _ => ⟨rest, .inl hm⟩⟩
  · refine ⟨fun hne => ⟨rest, .inr ?_⟩, fun hne => ⟨rest, .inr ?_⟩⟩
    · obtain hd | rfl | rfl | rfl := commandState_fsDec_cases i { s with hostMoves := rest }
      · exact absurd hd hne
      · exact .inl hm
      · exact .inr (.inl hm)
      · exact .inr (.inr hm)
    · obtain he | rfl | ⟨c, u, v, rfl, hp⟩ := commandState_fsEnc_cases i { s with hostMoves := rest }
      · exact absurd he hne
      · exact .inl hm
      · refine .inr ⟨c, u, v, hm, ?_⟩
        rw [State.respond_responses, commandState_responses, hp]

/-! ## What the commands do not read -/

theorem State.loadRandom_setFsDec (s : State) (b : Bool) : (s.setFsDec b).loadRandom = s.loadRandom.setFsDec b := by
  cases hs : s.seeds <;> simp [State.loadRandom, State.rnd, State.rndTaken, State.setLorenz, State.setFsDec, hs]

theorem State.loadRandom_setFsEnc (s : State) (b : Bool) : (s.setFsEnc b).loadRandom = s.loadRandom.setFsEnc b := by
  cases hs : s.seeds <;> simp [State.loadRandom, State.rnd, State.rndTaken, State.setLorenz, State.setFsEnc, hs]

/-- Only the Decoder's commands read or write `FS_DEC` (R26). -/
theorem exec_setFsDec {i : Instr} (hinit : i ≠ .decInit) (hstep : ∀ v, i ≠ .decStep v) (s : State) (b : Bool) :
    exec i (s.setFsDec b) = .next (((commandState i s).respond (commandResponse i s)).setFsDec b) := by
  cases i with
  | decInit => exact absurd rfl hinit
  | decStep v => exact absurd rfl (hstep v)
  | lzSeed =>
    rw [exec_lzSeed, State.loadRandom_setFsDec]
    rfl
  | _ => rfl

/-- Only the Encoder's commands read or write `FS_ENC` (R27). -/
theorem exec_setFsEnc {i : Instr} (hinit : i ≠ .encInit) (hstep : ∀ c, i ≠ .encStep c) (s : State) (b : Bool) :
    exec i (s.setFsEnc b) = .next (((commandState i s).respond (commandResponse i s)).setFsEnc b) := by
  cases i with
  | encInit => exact absurd rfl hinit
  | encStep c => exact absurd rfl (hstep c)
  | lzSeed =>
    rw [exec_lzSeed, State.loadRandom_setFsEnc]
    rfl
  | _ => rfl

/-- Settles O52: a flag is read and written by the commands of its own codec only. -/
theorem flagsAreIndependent : Obligations.FlagsAreIndependent := by
  intro i s b
  refine ⟨_, exec_eq i s, fun hdec => ?_, fun henc => ?_, fun hlz => ⟨?_, ?_⟩⟩
  · exact exec_setFsEnc (by rintro rfl; simp at hdec) (by rintro c rfl; simp at hdec) s b
  · exact exec_setFsDec (by rintro rfl; simp at henc) (by rintro v rfl; simp at henc) s b
  · exact exec_setFsEnc (by rintro rfl; simp at hlz) (by rintro c rfl; simp at hlz) s b
  · exact exec_setFsDec (by rintro rfl; simp at hlz) (by rintro v rfl; simp at hlz) s b

/-- Settles O53: what a codec command writes and answers is a function of the parameters and one flag. -/
theorem codecIgnoresWheels : Obligations.CodecIgnoresWheels := by
  rintro i s m (rfl | rfl | ⟨v, rfl⟩ | ⟨c, rfl⟩) <;> exact ⟨_, exec_eq _ s, rfl, rfl⟩

theorem cellAhead_zero (m : Lorenz) (w : WheelName) : cellAhead m w 0 = (m.wheel w).readHead :=
  (Wheel.readHead_eq_at_zero _).symm

/-- Settles O54: the keystream is the same where the Psi and Chi heads are. -/
theorem encIgnoresMu : Obligations.EncIgnoresMu := by
  intro s m b h
  simp only [cellAhead_zero] at h
  refine ⟨_, exec_eq _ s, ?_⟩
  rw [exec_eq, commandResponse, State.setLorenz_lorenz, State.setLorenz_cfg, Lorenz.keystream_congr s.cfg h]
  rfl

end Sys2Proof.Machine
end

section
/-! PROOFS. The commands that only read, `LZ.ENC` and `LZ.DRAW` (spec/20_memory.md R57): issued alone and issued many times. -/

namespace Sys2Proof.Machine

open Safety

/-- The step on the word of a command whose operand fits carries that command out. -/
theorem step_of_encode {s : State} {i : Instr} {rest : List HostMove} (h : s.hostMoves = .command (encode i) :: rest)
    (hf : OperandFits s.cfg.charW i) :
    step s = .next ((commandState i { s with hostMoves := rest }).respond (commandResponse i { s with hostMoves := rest })) := by
  have hd : decode s.cfg.charW (encode i) = .ok i := decode_ok_iff.mpr ⟨rfl, hf⟩
  rw [step_of_command h, ← exec_eq]
  simp [runWord, hd]

/-- Settles O21: the first command leaves the machine as it was, so the second xors the same keystream in and takes it out. -/
theorem encIsSelfInverse : Obligations.EncIsSelfInverse := by
  intro s b
  have hb : b ^^^ s.lorenz.keystream s.cfg ^^^ s.lorenz.keystream s.cfg = b := by
    rw [BitVec.xor_assoc, BitVec.xor_self, BitVec.xor_zero]
  refine ⟨_, _, b ^^^ s.lorenz.keystream s.cfg, exec_eq _ s, ⟨rfl, rfl, rfl⟩, rfl, exec_eq _ _, ⟨?_, rfl, rfl⟩, rfl⟩
  rw [State.respond_responses, commandState_responses]
  exact congrArg (fun y => _ ++ [Response.byte y]) hb

/-- A command that only reads (R57). -/
def ReadsOnly (i : Instr) : Prop := (∃ b, i = .lzEnc b) ∨ i = .lzDraw

section
variable {i : Instr}

theorem ReadsOnly.operandFits (h : ReadsOnly i) (charW : Nat) : OperandFits charW i := by
  obtain ⟨b, rfl⟩ | rfl := h <;> trivial

theorem ReadsOnly.commandState (h : ReadsOnly i) (s : State) : commandState i s = s := by
  obtain ⟨b, rfl⟩ | rfl := h <;> rfl

/-- What a reading command answers depends on the wheels and the parameters alone. -/
theorem ReadsOnly.commandResponse_congr (h : ReadsOnly i) {s t : State} (hm : s.lorenz = t.lorenz) (hk : s.cfg = t.cfg) :
    commandResponse i s = commandResponse i t := by
  obtain ⟨b, rfl⟩ | rfl := h <;> simp only [commandResponse, hm, hk]

/-- One reading command: it leaves the host's queue and its response is added; nothing else happens. -/
theorem ReadsOnly.step_eq (h : ReadsOnly i) (s : State) (ms : List HostMove) :
    step { s with hostMoves := .command (encode i) :: ms } =
      .next { s.respond (commandResponse i s) with hostMoves := ms } := by
  rw [step_of_encode rfl (h.operandFits _), h.commandState, h.commandResponse_congr (t := s) rfl rfl]
  rfl

/-- Every issue finds the wheels and the parameters as the first one did, and so gives the first one's response. -/
theorem ReadsOnly.runSteps_replicate (h : ReadsOnly i) (k : Nat) (s : State) (rest : List HostMove) :
    runSteps k { s with hostMoves := commandMoves (List.replicate k i) ++ rest } =
      .next { s with hostMoves := rest, responses := s.responses ++ List.replicate k (commandResponse i s) } := by
  induction k generalizing s with
  | zero => simp [runSteps]
  | succ k ih =>
    have hr : commandResponse i (s.respond (commandResponse i s)) = commandResponse i s :=
      h.commandResponse_congr rfl rfl
    rw [List.replicate_succ, commandMoves_cons, List.cons_append, runSteps_succ (h.step_eq s _), ih, hr,
      State.respond_responses, List.append_assoc, List.singleton_append, ← List.replicate_succ]
    rfl

end

/-- Settles O22: the one response is that of the command issued in the state at the start. -/
theorem readsArePure : Obligations.ReadsArePure :=
  fun s i h => ⟨commandResponse i s, fun k rest => ReadsOnly.runSteps_replicate h k s rest⟩

end Sys2Proof.Machine
end

section
/-! PROOFS. Runs of presented commands (spec/30_encoding.md R70, R78): what a list of commands leaves behind and answers. -/

namespace Sys2Proof.Machine

open Safety

/-- What one command leaves behind, its response included. -/
def afterCommand (i : Instr) (s : State) : State := (commandState i s).respond (commandResponse i s)

/-- What commands issued in order leave behind. -/
def afterCommands : List Instr → State → State
  | [], s => s
  | i :: is, s => afterCommands is (afterCommand i s)

/-- The responses commands issued in order give. -/
def commandResponses : List Instr → State → List Response
  | [], _ => []
  | i :: is, s => commandResponse i s :: commandResponses is (afterCommand i s)

section
variable (i : Instr) (is js : List Instr) (s : State)

@[simp] theorem afterCommands_nil : afterCommands [] s = s := rfl

@[simp] theorem afterCommands_cons : afterCommands (i :: is) s = afterCommands is (afterCommand i s) := rfl

@[simp] theorem commandResponses_nil : commandResponses [] s = [] := rfl

@[simp] theorem commandResponses_cons :
    commandResponses (i :: is) s = commandResponse i s :: commandResponses is (afterCommand i s) := rfl

theorem afterCommands_append : afterCommands (is ++ js) s = afterCommands js (afterCommands is s) := by
  induction is generalizing s with
  | nil => rfl
  | cons i is ih => exact ih _

theorem commandResponses_append :
    commandResponses (is ++ js) s = commandResponses is s ++ commandResponses js (afterCommands is s) := by
  induction is generalizing s with
  | nil => rfl
  | cons i is ih => exact congrArg (_ :: ·) (ih _)

@[simp] theorem commandState_cfg : (commandState i s).cfg = s.cfg := by
  cases i with
  | lzSeed => exact s.loadRandom_cfg
  | _ => rfl

@[simp] theorem afterCommand_cfg : (afterCommand i s).cfg = s.cfg := commandState_cfg i s

@[simp] theorem afterCommands_cfg : (afterCommands is s).cfg = s.cfg := by
  induction is generalizing s with
  | nil => rfl
  | cons i is ih => exact (ih _).trans (afterCommand_cfg i s)

theorem afterCommand_responses : (afterCommand i s).responses = s.responses ++ [commandResponse i s] := by
  rw [afterCommand, State.respond_responses, commandState_responses]

theorem afterCommands_responses : (afterCommands is s).responses = s.responses ++ commandResponses is s := by
  induction is generalizing s with
  | nil => simp
  | cons i is ih => simp [ih, afterCommand_responses]

/-- No command reads or writes what the host will do next. -/
theorem afterCommand_withHostMoves (ms : List HostMove) :
    afterCommand i { s with hostMoves := ms } = { afterCommand i s with hostMoves := ms } := by
  cases i with
  | lzSeed =>
    cases hs : s.seeds <;>
      simp [afterCommand, commandState, commandResponse, State.loadRandom, State.rnd, State.rndTaken, State.setLorenz,
        State.respond, hs]
  | _ => rfl

theorem afterCommands_withHostMoves (ms : List HostMove) :
    afterCommands is { s with hostMoves := ms } = { afterCommands is s with hostMoves := ms } := by
  induction is generalizing s with
  | nil => rfl
  | cons i is ih => rw [afterCommands_cons, afterCommand_withHostMoves, ih, afterCommands_cons]

end

/-- The host's moves that issue commands run to the state these commands leave behind. -/
theorem runSteps_commandMoves {is : List Instr} {s : State} {rest : List HostMove}
    (h : s.hostMoves = commandMoves is ++ rest) (hf : ∀ i ∈ is, OperandFits s.cfg.charW i) :
    runSteps is.length s = .next { afterCommands is s with hostMoves := rest } := by
  induction is generalizing s with
  | nil => simp only [commandMoves_nil, List.nil_append] at h; subst h; rfl
  | cons i is ih =>
    obtain ⟨hi, his⟩ := List.forall_mem_cons.mp hf
    have hstep : step s = .next { afterCommand i s with hostMoves := commandMoves is ++ rest } :=
      (step_of_encode h hi).trans (congrArg _ (afterCommand_withHostMoves i s _))
    rw [List.length_cons, runSteps_succ hstep, ih rfl (by simpa using his), afterCommands_withHostMoves]
    rfl

end Sys2Proof.Machine
end

section
/-! PROOFS. The round trip of two Lorenz Machines in lock-step (spec/42_lorenz_step_encode.md R123). -/

namespace Sys2Proof.Machine

open Safety

/-- What the machine answers to the bytes `xs`, the machine stepping after each (R78, R120). -/
def cryptBytes (k : Config) : Lorenz → List Byte → List Byte
  | _, [] => []
  | m, x :: xs => (x ^^^ m.keystream k) :: cryptBytes k m.stepMachine xs

theorem cryptBytes_length (k : Config) (m : Lorenz) (xs : List Byte) : (cryptBytes k m xs).length = xs.length := by
  induction xs generalizing m with
  | nil => rfl
  | cons x xs ih => exact congrArg (· + 1) (ih _)

/-- The same machine, under the same packings, takes out the keystream it xored in. -/
theorem cryptBytes_cryptBytes {k k' : Config} (hpsi : k'.packPsi = k.packPsi) (hchi : k'.packChi = k.packChi) (m : Lorenz)
    (xs : List Byte) : cryptBytes k' m (cryptBytes k m xs) = xs := by
  have hk (m : Lorenz) : m.keystream k' = m.keystream k := by rw [Lorenz.keystream, Lorenz.keystream, hpsi, hchi]
  induction xs generalizing m with
  | nil => rfl
  | cons x xs ih => rw [cryptBytes, cryptBytes, hk, BitVec.xor_assoc, BitVec.xor_self, BitVec.xor_zero, ih]

/-- The responses to a run of `LZ.CRYPT`: to each byte its cipher byte, then the `NONE` of the step. -/
theorem commandResponses_lzCrypt (xs : List Byte) (s : State) :
    commandResponses (xs.flatMap lzCrypt) s =
      (cryptBytes s.cfg s.lorenz xs).flatMap (fun y => [Response.byte y, Response.none]) := by
  induction xs generalizing s with
  | nil => rfl
  | cons x xs ih =>
    rw [List.flatMap_cons, commandResponses_append, ih]
    rfl

/-- A run of `LZ.CRYPT` steps the machine once for each byte. -/
theorem afterCommands_lzCrypt_lorenz (xs : List Byte) (s : State) :
    (afterCommands (xs.flatMap lzCrypt) s).lorenz = Lorenz.stepMachine^[xs.length] s.lorenz := by
  induction xs generalizing s with
  | nil => rfl
  | cons x xs ih =>
    rw [List.flatMap_cons, afterCommands_append, ih]
    rfl

theorem commandResponse_construct {i : Instr} (hi : i = .lzZero ∨ i = .lzSeed) (s : State) :
    commandResponse i s = .none := by
  obtain rfl | rfl := hi <;> rfl

/-- One presented value of `RND` is what both blocks sample. -/
theorem State.rnd_congr {s t : State} (hs : s.seeds ≠ []) (h : t.seeds.head? = s.seeds.head?) : t.rnd = s.rnd := by
  obtain ⟨r, more, hs⟩ := List.exists_cons_of_ne_nil hs
  obtain ⟨more', ht⟩ : ∃ more', t.seeds = r :: more' := List.head?_eq_some_iff.mp (by rw [h, hs, List.head?_cons])
  rw [(State.rnd_presented ht).1, (State.rnd_presented hs).1]

/-- `LZ.ZERO`, or `LZ.SEED` with one value of `RND`, gives one machine whatever the states were. -/
theorem afterCommand_construct_lorenz {i : Instr} {s t : State} (hi : i = .lzZero ∨ (i = .lzSeed ∧ s.seeds ≠ []))
    (hseed : i = .lzSeed → t.seeds.head? = s.seeds.head?) : (afterCommand i t).lorenz = (afterCommand i s).lorenz := by
  obtain rfl | ⟨rfl, hs⟩ := hi
  · rfl
  · exact congrArg randomLorenz (State.rnd_congr hs (hseed rfl))

/-- A construction and then one `LZ.CRYPT` for each byte, as the host sees it. -/
theorem runSteps_construct_lzCrypt {i : Instr} {xs : List Byte} {s : State} {rest : List HostMove}
    (h : s.hostMoves = commandMoves (i :: xs.flatMap lzCrypt) ++ rest) (hi : i = .lzZero ∨ i = .lzSeed) :
    ∃ t, runSteps (1 + 2 * xs.length) s = .next t ∧
      t.responses = s.responses ++ Response.none ::
        (cryptBytes s.cfg (afterCommand i s).lorenz xs).flatMap (fun y => [Response.byte y, Response.none]) ∧
      t.lorenz = Lorenz.stepMachine^[xs.length] (afterCommand i s).lorenz := by
  have hfit : ∀ j ∈ i :: xs.flatMap lzCrypt, OperandFits s.cfg.charW j := by
    refine List.forall_mem_cons.mpr ⟨by obtain rfl | rfl := hi <;> trivial, fun j hj => ?_⟩
    obtain ⟨x, -, hx⟩ := List.mem_flatMap.mp hj
    obtain rfl | rfl : j = .lzEnc x ∨ j = .lzStep := by simpa [lzCrypt] using hx
    · trivial
    · trivial
  have hlen : (i :: xs.flatMap lzCrypt).length = 1 + 2 * xs.length := by
    simp [lzCrypt, List.length_flatMap]; omega
  have hrun := runSteps_commandMoves h hfit
  rw [hlen] at hrun
  refine ⟨_, hrun, ?_, afterCommands_lzCrypt_lorenz xs _⟩
  change (afterCommands _ s).responses = _
  rw [afterCommands_responses, commandResponses_cons, commandResponse_construct hi, commandResponses_lzCrypt, afterCommand_cfg]

/-- Settles O23: both machines are constructed alike and step together, so the second xors out what the first xored in. -/
theorem lockstepRoundTrip : Obligations.LockstepRoundTrip := by
  intro s₁ i xs rest₁ hm₁ hi
  have hi' : i = .lzZero ∨ i = .lzSeed := hi.imp_right And.left
  obtain ⟨t₁, hrun₁, hresp₁, hlz₁⟩ := runSteps_construct_lzCrypt hm₁ hi'
  have hlen := cryptBytes_length s₁.cfg (afterCommand i s₁).lorenz xs
  refine ⟨t₁, _, hrun₁, hlen, hresp₁, ?_⟩
  intro s₂ rest₂ hpsi hchi hseed hm₂
  obtain ⟨t₂, hrun₂, hresp₂, hlz₂⟩ := runSteps_construct_lzCrypt hm₂ hi'
  have hstart : (afterCommand i s₂).lorenz = (afterCommand i s₁).lorenz := afterCommand_construct_lorenz hi hseed
  rw [hlen] at hrun₂ hlz₂
  refine ⟨t₂, hrun₂, ?_, ?_⟩
  · rw [hresp₂, hstart, cryptBytes_cryptBytes hpsi hchi]
  · rw [hlz₂, hlz₁, hstart]

end Sys2Proof.Machine
end

section
/-! PROOFS. The round trip of the codec (spec/46_ita2_encoder.md R163): what the Encoder emits for one character, what the Decoder
makes of it, and the induction over the string. -/

namespace Sys2Proof.Machine

open Safety

variable {k : Config}

/-! ## One character -/

/-- The control that puts the Decoder in a shift state (R140, R151). -/
def shiftControl (figureShift : Bool) : CodeUnit := if figureShift then figsCode else ltrsCode

theorem decodeUnit_shiftControl (k : Config) (fs b : Bool) : decodeUnit k fs (shiftControl b) = (b, .none) := by
  cases b <;> rfl

theorem decodeUnit_of_entry (wf : k.WellFormed) {fs : Bool} {v : CodeUnit} {c : CharCode}
    (h : entry (activeTable k fs) v = some c) : decodeUnit k fs v = (fs, .char c) := by
  have hv : ¬ IsControl v := not_isControl_of_entry wf (entry_of_activeTable h)
  obtain ⟨hf, hl⟩ := not_or.mp (mt isControl_iff.mpr hv)
  simp [decodeUnit, hf, hl, h]

/-- The Decoder reads nothing of the parameters but the tables. -/
theorem decodeUnit_congr {k' : Config} (hl : k'.ltrs = k.ltrs) (hf : k'.figs = k.figs) (fs : Bool) (v : CodeUnit) :
    decodeUnit k' fs v = decodeUnit k fs v := by
  simp only [decodeUnit, activeTable, hl, hf]

theorem not_mapped_iff {c : CharCode} : ¬ Mapped k c ↔ Unmapped k c := by
  simp [Mapped, Unmapped, tableHas_iff, forall_and]

theorem mapped_of_entry {fs : Bool} {v : CodeUnit} {c : CharCode} (h : entry (activeTable k fs) v = some c) : Mapped k c := by
  by_contra hn
  obtain ⟨hl, hf⟩ := not_mapped_iff.mp hn v
  exact (entry_of_activeTable h).elim hl hf

/-- What the Encoder does under well-formed tables (R161), said in the Decoder's terms: it skips a character without mapping;
else it emits a code that holds the character in the table of its new shift state, and before it, if that state is another
than the old one, the control of the new one. -/
theorem encodeChar_decodable (wf : k.WellFormed) (fs : Bool) (c : CharCode) :
    (¬ Mapped k c ∧ encodeChar k fs c = (fs, .none)) ∨
    (∃ v, entry (activeTable k fs) v = some c ∧ encodeChar k fs c = (fs, .unit1 v)) ∨
    (∃ v b, entry (activeTable k b) v = some c ∧ encodeChar k fs c = (b, .unit2 (shiftControl b) v)) := by
  obtain ⟨hs, he⟩ | ⟨v, -, hs, he⟩ | ⟨v, -, -, hl, he⟩ | ⟨v, -, -, -, hf, he⟩ | ⟨-, -, hl, hf, he⟩ := encMap_cases k c
  · refine .inl ⟨not_mapped_iff.mpr fun v => ⟨fun h => ?_, fun h => ?_⟩, by simp [encodeChar, he]⟩
    · simp [wf.entry_scalar (.inl h)] at hs
    · simp [wf.entry_scalar (.inr h)] at hs
  · obtain ⟨hl, hf⟩ := wf.entry_shared hs
    exact .inr (.inl ⟨v, by cases fs <;> assumption, by simp [encodeChar, he]⟩)
  · cases fs with
    | false => exact .inr (.inl ⟨v, hl, by simp [encodeChar, he]⟩)
    | true => exact .inr (.inr ⟨v, false, hl, by simp [encodeChar, he, shiftControl]⟩)
  · cases fs with
    | false => exact .inr (.inr ⟨v, true, hf, by simp [encodeChar, he, shiftControl]⟩)
    | true => exact .inr (.inl ⟨v, hf, by simp [encodeChar, he]⟩)
  · exact .inl ⟨not_mapped_iff.mpr fun v => ⟨hl v, hf v⟩, by simp [encodeChar, he]⟩

/-! ## A Decoder that follows an Encoder -/

/-- A Decoder `s'` in step with an Encoder `s`: the same tables and equal flags. -/
structure Follows (s s' : State) : Prop where
  ltrs : s'.cfg.ltrs = s.cfg.ltrs
  figs : s'.cfg.figs = s.cfg.figs
  flags : s'.fsDec = s.fsEnc

section
variable {s s' : State}

theorem afterCommand_decStep_fsDec (v : CodeUnit) (s : State) :
    (afterCommand (.decStep v) s).fsDec = (decodeUnit s.cfg s.fsDec v).1 := rfl

theorem commandResponse_decStep (v : CodeUnit) (s : State) :
    commandResponse (.decStep v) s = (decodeUnit s.cfg s.fsDec v).2 := rfl

/-- Decoding what the Encoder emits for one character gives that character if it has a mapping, and keeps the two in step. -/
theorem Follows.decodes_char (h : Follows s s') (wf : s.cfg.WellFormed) (c : CharCode) :
    let us := unitsOf (commandResponse (.encStep c) s)
    decodedChars (commandResponses (decSeq us) s') = [c].filter (fun c => decide (Mapped s.cfg c)) ∧
      Follows (afterCommand (.encStep c) s) (afterCommands (decSeq us) s') := by
  have hdec := decodeUnit_congr h.ltrs h.figs
  have hflag : ∀ us, (afterCommands (decSeq us) s').fsDec = (encodeChar s.cfg s.fsEnc c).1 →
      Follows (afterCommand (.encStep c) s) (afterCommands (decSeq us) s') := fun us hf =>
    ⟨by simpa using h.ltrs, by simpa using h.figs, hf⟩
  simp only [commandResponse]
  obtain ⟨hm, he⟩ | ⟨v, hv, he⟩ | ⟨v, b, hv, he⟩ := encodeChar_decodable wf s.fsEnc c
  · refine ⟨?_, hflag _ ?_⟩
    · simp [he, hm, unitsOf, decSeq, decodedChars]
    · simp [he, unitsOf, decSeq, h.flags]
  · have hd := decodeUnit_of_entry wf hv
    refine ⟨?_, hflag _ ?_⟩
    · simp [he, mapped_of_entry hv, unitsOf, decSeq, decodedChars, charsOf, commandResponse_decStep, h.flags, hdec, hd]
    · simp [he, unitsOf, decSeq, afterCommand_decStep_fsDec, h.flags, hdec, hd]
  · have hd := decodeUnit_of_entry wf hv
    have hs := decodeUnit_shiftControl s.cfg s.fsEnc b
    refine ⟨?_, hflag _ ?_⟩
    · simp [he, mapped_of_entry hv, unitsOf, decSeq, decodedChars, charsOf, commandResponse_decStep,
        afterCommand_decStep_fsDec, h.flags, hdec, hs, hd]
    · simp [he, unitsOf, decSeq, afterCommand_decStep_fsDec, h.flags, hdec, hs, hd]

theorem decSeq_append (us vs : List CodeUnit) : decSeq (us ++ vs) = decSeq us ++ decSeq vs := List.map_append

theorem decodedChars_append (rs qs : List Response) : decodedChars (rs ++ qs) = decodedChars rs ++ decodedChars qs :=
  List.flatMap_append

theorem encStr_cons (c : CharCode) (cs : List CharCode) : encStr (c :: cs) = .encStep c :: encStr cs := rfl

theorem flatUnits_cons (r : Response) (rs : List Response) : flatUnits (r :: rs) = unitsOf r ++ flatUnits rs := rfl

/-- Decoding what the Encoder emits for a string gives the string's mapped characters, and keeps the two in step. -/
theorem Follows.decodes_string (h : Follows s s') (wf : s.cfg.WellFormed) (cs : List CharCode) :
    let us := flatUnits (commandResponses (encStr cs) s)
    decodedChars (commandResponses (decSeq us) s') = cs.filter (fun c => decide (Mapped s.cfg c)) ∧
      Follows (afterCommands (encStr cs) s) (afterCommands (decSeq us) s') := by
  induction cs generalizing s s' with
  | nil => exact ⟨rfl, h⟩
  | cons c cs ih =>
    obtain ⟨hc, hnext⟩ := h.decodes_char wf c
    obtain ⟨hcs, hend⟩ := ih hnext (by simpa using wf)
    simp only [encStr_cons, commandResponses_cons, flatUnits_cons, decSeq_append, commandResponses_append,
      afterCommands_append, afterCommands_cons, decodedChars_append]
    refine ⟨?_, hend⟩
    rw [hc, hcs, afterCommand_cfg, ← List.filter_append, List.singleton_append]

end

/-- Settles O41: a Decoder in step with the Encoder stays so over the string, and answers the mapped characters. -/
theorem codecRoundTrip : Obligations.CodecRoundTrip := by
  intro s cs rest wf hcs hm
  have hfit : ∀ i ∈ encStr cs, OperandFits s.cfg.charW i := List.forall_mem_map.mpr hcs
  have hrun := runSteps_commandMoves hm hfit
  rw [encStr, List.length_map] at hrun
  refine ⟨_, commandResponses (encStr cs) s, hrun, afterCommands_responses _ s, ?_⟩
  intro s' rest' hl hf hflag hm'
  have hfit' : ∀ i ∈ decSeq (flatUnits (commandResponses (encStr cs) s)), OperandFits s'.cfg.charW i :=
    List.forall_mem_map.mpr fun _ _ => trivial
  have hrun' := runSteps_commandMoves hm' hfit'
  rw [decSeq, List.length_map] at hrun'
  obtain ⟨hchars, hend⟩ := Follows.decodes_string ⟨hl, hf, hflag⟩ wf cs
  exact ⟨_, _, hrun', afterCommands_responses _ s', hchars, hend.flags⟩

end Sys2Proof.Machine
end

section
/-! PROOFS. The command words and the mask-and-match table (spec/30_encoding.md R74), and the step on a presented word (R70). -/

namespace Sys2Proof.Machine

open Safety

/-! ## Mask and match -/

/-- Masking the low `n` bits off a word keeps the multiple of `2 ^ n` below it. -/
theorem and_highMask_toNat (w : Cmd) (n : Nat) :
    (w &&& BitVec.allOnes 32 <<< n).toNat = w.toNat / 2 ^ n * 2 ^ n := by
  have hle := Nat.div_mul_le_self w.toNat (2 ^ n)
  rw [← BitVec.shiftLeft_ushiftRight, BitVec.toNat_shiftLeft, BitVec.toNat_ushiftRight, Nat.shiftLeft_eq,
    Nat.shiftRight_eq_div_pow, Nat.mod_eq_of_lt (lt_of_le_of_lt hle w.isLt)]

theorem encode_toNat (i : Instr) :
    (encode i).toNat = i.fields.op.toNat * 2 ^ 28 + i.fields.mbz.toNat * 2 ^ 21 + i.fields.arg.toNat :=
  wordOfFields_toNat i.fields

/-- A word made of a `match` and an operand of `n` bits is the word whose high bits are the `match` and whose low bits the
operand. -/
theorem eq_iff_masked_and_low {x w m : Cmd} {n v : Nat} (hm : 2 ^ n ∣ m.toNat) (hv : v < 2 ^ n) (hx : x.toNat = m.toNat + v) :
    x = w ↔ w &&& BitVec.allOnes 32 <<< n = m ∧ v = w.toNat % 2 ^ n := by
  rw [← BitVec.toNat_inj, ← BitVec.toNat_inj, and_highMask_toNat, hx]
  obtain ⟨q, hq⟩ := hm
  have hw := Nat.div_add_mod' w.toNat (2 ^ n)
  constructor
  · intro h
    have hmod : w.toNat % 2 ^ n = v := by rw [← h, hq, Nat.mul_add_mod, Nat.mod_eq_of_lt hv]
    omega
  · omega

/-- The word of a command is the one its row selects and whose operand field is the operand. -/
theorem encode_eq_iff (i : Instr) (w : Cmd) : encode i = w ↔ w &&& rowMask i = rowMatch i ∧ OperandIs i w := by
  cases i with
  | lzEnc b =>
    refine eq_iff_masked_and_low (m := 0x40000000) (n := 8) (by decide) b.isLt ?_
    have := b.isLt
    simp [encode_toNat, Instr.fields]; omega
  | decStep v =>
    refine eq_iff_masked_and_low (m := 0x90000000) (n := 5) (by decide) v.isLt ?_
    have := v.isLt
    simp [encode_toNat, Instr.fields]; omega
  | encStep c =>
    refine eq_iff_masked_and_low (m := 0xB0000000) (n := 21) (by decide) c.isLt ?_
    simp [encode_toNat, Instr.fields]
  | lzZero | lzSeed | lzStep | lzDraw | decInit | encInit =>
    have hall : w &&& BitVec.allOnes 32 = w := BitVec.and_allOnes
    exact ⟨fun h => ⟨hall.trans h.symm, trivial⟩, fun h => (hall.symm.trans h.1).symm⟩

/-- Settles O4: the decoder accepts exactly the words of commands, and a command's word is the one its row selects. -/
theorem wordSelectsRow : Obligations.WordSelectsRow := by
  intro w i
  have hf : OperandFits 21 i := operandFits_default i
  rw [decode_ok_iff, encode_eq_iff]
  simp only [hf, and_true]

/-- Settles O1: each word is that of its command, and the decoder inverts the encoder. -/
theorem specWordsDecode : Obligations.SpecWordsDecode :=
  have h : ∀ i : Instr, decode 21 (encode i) = .ok i := decodeOfEncode.2
  ⟨h .lzZero, h .lzSeed, h .lzStep, h (.lzEnc 0x14), h (.lzEnc 0xFF), h .lzDraw, h .decInit, h (.decStep 0x1B), h .encInit,
    h (.encStep 0x41), h (.encStep 0x10FFFF)⟩

/-! ## The step on a presented word -/

theorem runWord_of_decode {w : Cmd} {s : State} {i : Instr} (h : decode s.cfg.charW w = .ok i) : runWord w s = exec i s := by
  simp [runWord, h]

/-- Settles O6: taking the word off the host's moves leaves the parameters, so it decodes as before. -/
theorem stepRunsDecodedCommand : Obligations.StepRunsDecodedCommand :=
  fun _ _ _ _ hm hd => (step_of_command hm).trans (runWord_of_decode hd)

theorem toOption_eq_some_iff {ε α : Type} {r : Except ε α} {a : α} : r.toOption = some a ↔ r = .ok a := by
  cases r <;> simp [Except.toOption]

/-- A table word is read as the 32-bit word with its bits, at the default width. -/
theorem decode_of_decodeTableWord {nbits w : Nat} {i : Instr} (h : decodeTableWord nbits w = some i) :
    decode 21 (BitVec.ofNat 32 (w % 2 ^ nbits)) = .ok i := by
  unfold decodeTableWord at h
  split at h
  · exact toOption_eq_some_iff.mp h
  · cases h

/-- Settles O7: a word of the default width decodes in a narrower block too when its operand fits there. -/
theorem presentedWordRunsNext : Obligations.PresentedWordRunsNext := by
  intro s nbits w i htab hfit
  have hd := (narrowCharactersOnly s.cfg.charW _ i).mpr ⟨decode_of_decodeTableWord htab, hfit⟩
  exact stepRunsDecodedCommand _ _ s.hostMoves i rfl hd

end Sys2Proof.Machine
end

section
/-! PROOFS. The wheel read from outside (spec/40_wheel.md R95 to R97, spec/10_state.md R21): steps rotate `as_array`, and the
head shows its elements in order. -/

namespace Sys2Proof.Machine

/-! ## The rotation of one wheel -/

section
variable {n : Nat} (x : Wheel n) (k : Nat)

/-- Steps rotate `as_array` to the left (R95). -/
theorem Wheel.iterate_stepClockwise_asArray : (Wheel.stepClockwise^[k] x).asArray = x.asArray.rotate k := by
  rw [asArray_eq_rotate, asArray_eq_rotate, iterate_stepClockwise_cells, iterate_stepClockwise_head, List.rotate_rotate]
  simpa using List.rotate_mod ((List.range n).map x.cells.getLsbD) (x.head + k)

/-- The head shows the elements of `as_array` in order, one each step (R96). -/
theorem Wheel.iterate_stepClockwise_readHead : (Wheel.stepClockwise^[k] x).readHead = x.at k := by
  rw [readHead, at_eq, iterate_stepClockwise_cells, iterate_stepClockwise_head]

end

/-- Settles O26: `k` steps are a rotation by `k`. -/
theorem stepsRotateTheArray : Obligations.StepsRotateTheArray := by
  intro n x k
  rw [Wheel.iterate_stepClockwise_asArray]
  refine ⟨fun j hj => ?_, List.rotate_perm _ k⟩
  rw [List.getElem?_rotate (hj.trans_eq x.asArray_length.symm), x.asArray_length]

/-- Settles O27: the head shows the elements in order, and the length is a period of the wheel. -/
theorem headTracksRotation : Obligations.HeadTracksRotation := by
  intro n x
  refine ⟨fun k => ?_, ?_⟩
  · have hk : k % n < n := Nat.mod_lt k (Nat.zero_lt_of_lt x.head.isLt)
    rw [Wheel.iterate_stepClockwise_readHead, x.asArray_getElem? _ hk, x.at_mod]
  · rw [(x.iterate_stepClockwise_eq_self_iff n).mpr dvd_rfl]

/-- Settles O28: what the head reads after `k` steps is the element at index `k`. -/
theorem arrayIsWhatIsObservable : Obligations.ArrayIsWhatIsObservable := by
  intro n x y
  simp only [Wheel.asArray_eq_iff, Wheel.iterate_stepClockwise_readHead]

end Sys2Proof.Machine
end

section
/-! PROOFS. The snapshot of the all-zero machine (spec/43_lorenz_draw.md R130, R135). -/

namespace Sys2Proof.Machine

/-- Every slot of the snapshot shows an element of the `as_array` of some wheel (R130). -/
theorem Lorenz.exists_mem_asArray_of_mem_drawBuffer {m : Lorenz} {src : Seg11Source} {b : Bool}
    (h : b ∈ m.drawBuffer src) : ∃ w, b ∈ (m.wheel w).asArray := by
  obtain ⟨⟨w, p⟩, -, hb⟩ := List.mem_flatMap.mp h
  refine ⟨w, ?_⟩
  unfold segment at hb
  split at hb
  · exact List.mem_of_mem_take (List.mem_reverse.mp hb)
  · exact List.mem_of_mem_take hb

theorem bitsToNat_eq_zero {l : List Bool} (h : ∀ b ∈ l, b = false) : bitsToNat l = 0 := by
  induction l with
  | nil => rfl
  | cons b l ih =>
    obtain ⟨hb, hl⟩ := List.forall_mem_cons.mp h
    rw [bitsToNat, hb, ih hl]
    rfl

end Sys2Proof.Machine

namespace Sys2Proof.Safety

open Machine

theorem AllZero.at {m : Lorenz} (h : AllZero m) (w : WheelName) (j : Nat) : (m.wheel w).at j = false := by
  rw [Wheel.at_eq, h w, BitVec.ofNat_eq_ofNat, BitVec.getLsbD_zero]

theorem AllZero.draw {m : Lorenz} (h : AllZero m) (src : Seg11Source) : m.draw src = 0 := by
  have hbuf : ∀ b ∈ m.drawBuffer src, b = false := by
    intro b hb
    obtain ⟨w, hw⟩ := Lorenz.exists_mem_asArray_of_mem_drawBuffer hb
    obtain ⟨j, -, rfl⟩ := List.mem_map.mp hw
    exact h.at w j
  rw [Lorenz.draw, bitsToNat_eq_zero hbuf]
  rfl

/-- Settles O32: the snapshot shows cells of the wheels and nothing else. -/
theorem zeroMachineDrawsNothing : Obligations.ZeroMachineDrawsNothing := by
  intro s h
  have hsnap : commandResponse .lzDraw s = .snap 0 := by rw [commandResponse, h.draw]
  exact hsnap ▸ exec_answers .lzDraw s

end Sys2Proof.Safety
end

section
/-! PROOFS. The default packing of the banks (spec/41_wheel_banks.md R107): `LZ.ENC` bit by bit (spec/42_lorenz_step_encode.md
R120), and the keystream of the all-zero machine (spec/70_reset_and_hazards.md R192). -/

namespace Sys2Proof.Machine

open Safety

/-- The default packing widens the five head bits with zeros (R53, R107). -/
theorem packByte_defaultPack (bits : BitVec 5) : packByte defaultPack bits = bits.setWidth 8 := by
  revert bits
  decide

/-- Under the default packings the keystream byte is the head bits of Chi xor those of Psi (R121). -/
theorem Lorenz.keystream_defaultPack {k : Config} (hpsi : k.packPsi = defaultPack) (hchi : k.packChi = defaultPack)
    (m : Lorenz) : m.keystream k = (m.chi.headBits ^^^ m.psi.headBits).setWidth 8 := by
  rw [keystream, Chi.readAll, Psi.readAll, hchi, hpsi, packByte_defaultPack, packByte_defaultPack, BitVec.setWidth_xor]

section
variable {m : Lorenz} {n : Nat} {w : WheelName}

/-- What is read off the wheels of a bank, in bank order (R107), has at position `n` what the wheel there shows. -/
theorem getD_map_of_getElem? {ws : List WheelName} (h : ws[n]? = some w) (f : WheelName → Bool) :
    (ws.map f).getD n false = f w := by
  rw [List.getD_eq_getElem?_getD, List.getElem?_map, h]
  rfl

theorem Lorenz.psi_headBits_getLsbD (h : [WheelName.a, .b, .c, .d, .e][n]? = some w) :
    m.psi.headBits.getLsbD n = cellAhead m w 0 := by
  rw [psi_headBits, fiveBits_getLsbD, cellAhead_zero]
  exact getD_map_of_getElem? h fun w => (m.wheel w).readHead

theorem Lorenz.chi_headBits_getLsbD (h : [WheelName.h, .i, .j, .k, .l][n]? = some w) :
    m.chi.headBits.getLsbD n = cellAhead m w 0 := by
  rw [chi_headBits, fiveBits_getLsbD, cellAhead_zero]
  exact getD_map_of_getElem? h fun w => (m.wheel w).readHead

end

/-- Settles O20: the keystream byte is the xor of the two banks' head bits, widened from five bits to eight. -/
theorem defaultPackingBits : Obligations.DefaultPackingBits := by
  intro s b hpsi hchi
  have hkey := s.lorenz.keystream_defaultPack hpsi hchi
  refine ⟨_, b ^^^ s.lorenz.keystream s.cfg, exec_eq _ s, ⟨rfl, rfl, rfl⟩, fun n w w' hw hw' => ?bankBit, fun n hn => ?highBit,
    fun hb => ?codeUnit⟩
  case bankBit =>
    have hn : n < 5 := (List.getElem?_eq_some_iff.mp hw).1
    rw [hkey, BitVec.getLsbD_xor, BitVec.getLsbD_setWidth, BitVec.getLsbD_xor, Lorenz.psi_headBits_getLsbD hw,
      Lorenz.chi_headBits_getLsbD hw', decide_eq_true (show n < 8 by omega), Bool.true_and, Bool.xor_assoc,
      Bool.xor_comm (cellAhead s.lorenz w' 0)]
  case highBit =>
    rw [hkey, BitVec.getLsbD_xor, BitVec.getLsbD_setWidth, BitVec.getLsbD_of_ge _ n hn, Bool.and_false, Bool.xor_false]
  case codeUnit =>
    have hkey5 : (s.lorenz.keystream s.cfg).toNat < 2 ^ 5 := by
      rw [hkey, BitVec.toNat_setWidth]
      omega
    have hy : (b ^^^ s.lorenz.keystream s.cfg).toNat < 2 ^ 5 := by
      rw [BitVec.toNat_xor]
      exact Nat.xor_lt_two_pow (Nat.lt_succ_of_le hb) hkey5
    exact Nat.le_of_lt_succ hy

end Sys2Proof.Machine

namespace Sys2Proof.Safety

open Machine

section
variable {m : Lorenz} (h : AllZero m)
include h

theorem AllZero.readHead (w : WheelName) : (m.wheel w).readHead = false := by
  rw [Wheel.readHead_eq_at_zero, h.at]

theorem AllZero.psi_headBits : m.psi.headBits = 0 := by
  simp only [Lorenz.psi_headBits, h.readHead]
  rfl

theorem AllZero.chi_headBits : m.chi.headBits = 0 := by
  simp only [Lorenz.chi_headBits, h.readHead]
  rfl

/-- The all-zero machine's keystream under the default packings is 0x00 (R192). -/
theorem AllZero.keystream_defaultPack {k : Config} (hpsi : k.packPsi = defaultPack) (hchi : k.packChi = defaultPack) :
    m.keystream k = 0 := by
  rw [Lorenz.keystream_defaultPack hpsi hchi, h.psi_headBits, h.chi_headBits]
  rfl

end

/-- Settles O24: the keystream byte is 0x00, and xor with it changes nothing. -/
theorem zeroMachineKeystream : Obligations.ZeroMachineKeystream := by
  intro s b h hpsi hchi
  have hresp : commandResponse (.lzEnc b) s = .byte b := by
    rw [commandResponse, h.keystream_defaultPack hpsi hchi, BitVec.ofNat_eq_ofNat, BitVec.xor_zero]
  refine ⟨_, exec_eq _ s, rfl, ?_⟩
  rw [hresp]
  exact ⟨rfl, rfl, rfl⟩

end Sys2Proof.Safety
end

section
/-! PROOFS. The all-zero machine (spec/42_lorenz_step_encode.md R116): `LZ.ZERO` makes it, and nothing but a seeding ends it
(spec/70_reset_and_hazards.md R192). -/

namespace Sys2Proof.Machine

open Safety

theorem exec_lzZero (s : State) : exec .lzZero s = .next (s.loadZeroed.respond .none) := rfl

/-- Settles O14: `LZ.ZERO` loads the zeroed machine and writes nothing else. -/
theorem lzZeroClearsWheels : Obligations.LzZeroClearsWheels := by
  refine fun s => ⟨_, exec_lzZero s, fun w n _ => ?_, zeroedLorenz_head, ⟨rfl, rfl⟩, ⟨rfl, rfl⟩, rfl, rfl, rfl⟩
  rw [State.respond_lorenz, State.loadZeroed_lorenz, zeroedLorenz_cells]
  exact BitVec.getLsbD_zero

/-! ## What every step keeps -/

theorem commandState_hostMoves (i : Instr) (s : State) : (commandState i s).hostMoves = s.hostMoves := by
  cases i with
  | lzSeed => exact s.loadRandom_hostMoves
  | _ => rfl

/-- A step takes the host's oldest move, whatever it is, and leaves the others (R70). -/
theorem step_hostMoves {s t : State} (h : step s = .next t) : t.hostMoves = s.hostMoves.tail := by
  obtain ⟨hm, rfl⟩ | ⟨rest, hm, rfl⟩ | ⟨w, rest, i, hm, -, hx⟩ | ⟨w, rest, e, hm, -, -, rfl⟩ := step_next_cases h
  · rw [hm, List.tail_nil]
  · rw [hm, State.hostReset_hostMoves, List.tail_cons]
  · rw [exec_eq] at hx
    injection hx with hx
    rw [← hx, hm, State.respond_hostMoves, commandState_hostMoves, List.tail_cons]
  · rw [hm, State.respond_hostMoves, List.tail_cons]

end Sys2Proof.Machine

namespace Sys2Proof.Safety

open Machine

theorem AllZero.stepMachine {m : Lorenz} (h : AllZero m) : AllZero m.stepMachine := fun w =>
  (m.stepMachine_cells w).trans (h w)

/-- Of the commands only `LZ.SEED` can make a cell 1 (R23). -/
theorem AllZero.commandState {s : State} {i : Instr} (h : AllZero s.lorenz) (hi : i ≠ .lzSeed) :
    AllZero (commandState i s).lorenz := by
  cases i with
  | lzZero => exact zeroedLorenz_cells
  | lzSeed => exact absurd rfl hi
  | lzStep => exact h.stepMachine
  | _ => exact h

/-- A step of a zero machine that nothing will seed writes no cell other than 0 (R116, R192). -/
theorem ZeroForever.allZero_of_step {s t : State} (h : ZeroForever s) (hs : step s = .next t) : AllZero t.lorenz := by
  obtain ⟨hzero, hseed, hload⟩ := h
  obtain ⟨-, rfl⟩ | ⟨rest, -, rfl⟩ | ⟨w, rest, i, hm, hd, hx⟩ | ⟨w, rest, e, -, -, -, rfl⟩ := step_next_cases hs
  · exact hzero
  · rw [State.hostReset_zeroed (s := { s with hostMoves := rest }) hload]
    exact zeroedLorenz_cells
  · have hi : i ≠ .lzSeed := by
      rintro rfl
      exact hseed w (hm ▸ List.mem_cons_self) hd
    rw [exec_eq] at hx
    injection hx with hx
    rw [← hx, State.respond_lorenz]
    exact AllZero.commandState hzero hi
  · exact hzero

/-- Settles O47: the step keeps the cells 0, and the moves and the parameters it leaves are those there were. -/
theorem stepKeepsZeroForever : Obligations.StepKeepsZeroForever := by
  intro s t h hs
  have hzero := h.allZero_of_step hs
  obtain ⟨-, hseed, hload⟩ := h
  have hcfg : t.cfg = s.cfg := parametersNeverChange s t hs
  refine ⟨hzero, fun w hw => ?_, hcfg ▸ hload⟩
  rw [step_hostMoves hs] at hw
  rw [hcfg]
  exact hseed w (List.mem_of_mem_tail hw)

end Sys2Proof.Safety
end

section
/-! PROOFS. `LZ.STEP` (spec/42_lorenz_step_encode.md R118): how far each head moves on one tick, and on `k` ticks when the motor
wheel `f` holds only zeros. -/

namespace Sys2Proof.Machine

open Safety

/-! ## One tick -/

section
variable (m : Lorenz) (w : WheelName)

/-- The table of R119 says how often the model's tick steps a wheel: once or not at all. -/
theorem advance_eq_moves : advance (cellAhead m .f 0) (cellAhead m .g 0) w = (m.moves w).toNat := by
  rw [cellAhead_zero, cellAhead_zero]
  cases w <;> rfl

theorem Lorenz.stepMachine_head :
    ((m.stepMachine.wheel w).head : Nat) = ((m.wheel w).head + (m.moves w).toNat) % w.len := by
  rw [stepMachine_wheel]
  cases m.moves w with
  | false => exact (Nat.mod_eq_of_lt (m.wheel w).head.isLt).symm
  | true => exact (m.wheel w).stepClockwise_head

end

/-- Settles O17: a tick steps the wheels that `Lorenz.moves` names and writes nothing else. -/
theorem lzStepAdvancesHeads : Obligations.LzStepAdvancesHeads := by
  refine fun s => ⟨_, exec_eq .lzStep s, s.lorenz.stepMachine_cells, fun w => ?_, ⟨rfl, rfl⟩, ⟨rfl, rfl⟩, rfl, rfl, rfl⟩
  rw [advance_eq_moves]
  exact s.lorenz.stepMachine_head w

/-! ## Many ticks -/

section
variable {m : Lorenz} {w : WheelName} (k : Nat)

theorem Lorenz.iterate_stepMachine_cells (m : Lorenz) (w : WheelName) :
    ((Lorenz.stepMachine^[k] m).wheel w).cells = (m.wheel w).cells := by
  induction k generalizing m with
  | zero => rfl
  | succ k ih => rw [Function.iterate_succ_apply, ih, stepMachine_cells]

/-- Psi and `f` move on every tick, whatever the machine (R118, steps 1 and 4). -/
theorem Lorenz.moves_of_mem (m : Lorenz) (hw : w ∈ [WheelName.a, .b, .c, .d, .e, .f]) : m.moves w = true := by
  cases w with
  | a | b | c | d | e | f => rfl
  | _ => exact absurd hw (by decide)

theorem Lorenz.iterate_stepMachine_head (m : Lorenz) (hw : w ∈ [WheelName.a, .b, .c, .d, .e, .f]) :
    (((Lorenz.stepMachine^[k] m).wheel w).head : Nat) = ((m.wheel w).head + k) % w.len := by
  induction k with
  | zero => exact (Nat.mod_eq_of_lt (m.wheel w).head.isLt).symm
  | succ k ih =>
    rw [Function.iterate_succ_apply', stepMachine_head, moves_of_mem _ hw, ih, Nat.mod_add_mod]
    rfl

/-- If `f` holds only zeros, its head reads 0, so a tick moves neither `g` nor Chi (R118, corner case v). -/
theorem Lorenz.stepMachine_of_stopped (h : m.mu.f.cells = 0) :
    m.stepMachine.mu.g = m.mu.g ∧ m.stepMachine.chi = m.chi := by
  have hf : m.mu.f.readHead = false := by rw [Wheel.readHead, h, BitVec.ofNat_eq_ofNat, BitVec.getLsbD_zero]
  simp [stepMachine_eq, hf]

theorem Lorenz.iterate_stepMachine_of_stopped (h : m.mu.f.cells = 0) :
    (Lorenz.stepMachine^[k] m).mu.g = m.mu.g ∧ (Lorenz.stepMachine^[k] m).chi = m.chi := by
  induction k with
  | zero => exact ⟨rfl, rfl⟩
  | succ k ih =>
    have hk : (Lorenz.stepMachine^[k] m).mu.f.cells = 0 := (iterate_stepMachine_cells k m .f).trans h
    obtain ⟨hg, hchi⟩ := stepMachine_of_stopped hk
    rw [Function.iterate_succ_apply', hg, hchi]
    exact ih

end

theorem afterCommands_lzStep_lorenz (k : Nat) (s : State) :
    (afterCommands (List.replicate k .lzStep) s).lorenz = Lorenz.stepMachine^[k] s.lorenz := by
  induction k generalizing s with
  | zero => rfl
  | succ k ih => exact ih (afterCommand .lzStep s)

/-- The host's moves that issue `k` times `LZ.STEP` are `k` ticks of the machine. -/
theorem runSteps_lzStep {k : Nat} {s : State} {rest : List HostMove}
    (h : s.hostMoves = commandMoves (List.replicate k .lzStep) ++ rest) :
    ∃ t, runSteps k s = .next t ∧ t.lorenz = Lorenz.stepMachine^[k] s.lorenz := by
  have hfit : ∀ i ∈ List.replicate k Instr.lzStep, OperandFits s.cfg.charW i := by
    intro i hi
    rw [List.eq_of_mem_replicate hi]
    trivial
  have hrun := runSteps_commandMoves h hfit
  rw [List.length_replicate] at hrun
  exact ⟨_, hrun, afterCommands_lzStep_lorenz k s⟩

/-- Settles O18: the run is `k` ticks, of which none finds the head of `f` at 1. -/
theorem stoppedMotorHoldsChi : Obligations.StoppedMotorHoldsChi := by
  intro k s rest hm hf
  obtain ⟨t, hrun, hlz⟩ := runSteps_lzStep hm
  obtain ⟨hg, hchi⟩ := Lorenz.iterate_stepMachine_of_stopped k hf
  refine ⟨t, hrun, ?_⟩
  rw [hlz]
  exact ⟨hg, hchi, fun w hw => Lorenz.iterate_stepMachine_head k _ hw, Lorenz.iterate_stepMachine_cells k _⟩

end Sys2Proof.Machine
end

section
/-! PROOFS. `LZ.ENC` under any packings (spec/42_lorenz_step_encode.md R120, R121). -/

namespace Sys2Proof.Machine

open Safety

/-- The head number of a list of wheels is their heads read as a number, the first at bit 0 (R107). -/
theorem headNumber_eq (m : Lorenz) (ws : List WheelName) :
    headNumber m ws = bitsToNat (ws.map fun w => (m.wheel w).readHead) := by
  induction ws with
  | nil => rfl
  | cons w ws ih => rw [headNumber, ih, cellAhead_zero, List.map_cons, bitsToNat]

theorem Lorenz.psi_headBits_toNat (m : Lorenz) : m.psi.headBits.toNat = headNumber m [.a, .b, .c, .d, .e] := by
  rw [psi_headBits, fiveBits_toNat, headNumber_eq]
  rfl

theorem Lorenz.chi_headBits_toNat (m : Lorenz) : m.chi.headBits.toNat = headNumber m [.h, .i, .j, .k, .l] := by
  rw [chi_headBits, fiveBits_toNat, headNumber_eq]
  rfl

/-- A packing gives its entry at the number the head bits are. -/
theorem packByte_eq_getElem? (t : PackTable) (bits : BitVec 5) : t.toList[bits.toNat]? = some (packByte t bits) := by
  simp [packByte]

/-- Settles O19: each bank's byte is its packing at its head number, and the keystream byte is the xor of the two. -/
theorem lzEncXorsKeystream : Obligations.LzEncXorsKeystream := by
  intro s b
  refine ⟨_, s.lorenz.psi.readAll s.cfg.packPsi, s.lorenz.chi.readAll s.cfg.packChi, exec_eq _ s, ?_, ?_, rfl, ⟨rfl, rfl⟩,
    ⟨rfl, rfl⟩, ?_⟩
  · rw [← Lorenz.psi_headBits_toNat]
    exact packByte_eq_getElem? _ _
  · rw [← Lorenz.chi_headBits_toNat]
    exact packByte_eq_getElem? _ _
  · rw [BitVec.xor_assoc]
    exact ⟨rfl, rfl, rfl⟩

end Sys2Proof.Machine
end

section
/-! PROOFS. `LZ.DRAW` slot by slot (spec/43_lorenz_draw.md R130 to R133, R136), and how little of the wheels it shows. -/

namespace Sys2Proof.Machine

open Safety

/-- Pieces of one length `n` set end to end: position `n * p + q` is position `q` of piece `p`. -/
theorem getElem?_flatMap_of_length {α β : Type} {n p q : Nat} {f : α → List β} {l : List α} {a : α}
    (hf : ∀ x, (f x).length = n) (hp : l[p]? = some a) (hq : q < n) : (l.flatMap f)[n * p + q]? = (f a)[q]? := by
  induction l generalizing p with
  | nil => cases hp
  | cons x l ih =>
    rw [List.flatMap_cons]
    cases p with
    | zero =>
      obtain rfl : x = a := by simpa using hp
      rw [Nat.mul_zero, Nat.zero_add, List.getElem?_append_left (by rwa [hf])]
    | succ p =>
      have hk : n * (p + 1) + q = (f x).length + (n * p + q) := by rw [hf, Nat.mul_succ]; omega
      rw [hk, List.getElem?_append_right (Nat.le_add_right _ _), Nat.add_sub_cancel_left]
      exact ih hp

/-- The sources in the order of their positions are the rows of R131's table. -/
theorem segmentSources_getElem? (src : Seg11Source) {p : Nat} (hp : p ≤ 11) :
    (segmentSources src)[p]? = some (segmentWheel src p) := by
  revert p
  cases src <;> decide

/-- The mirrored segments are those at even positions (R132). -/
theorem mirroredSegments_contains {p : Nat} (hp : p ≤ 11) : mirroredSegments.contains p = decide (p % 2 = 0) := by
  revert p
  decide

/-- Which element of its wheel's `as_array` slot `q` of segment `p` shows (R130, R132). -/
def segmentElement (p q : Nat) : Nat := if p % 2 = 0 then 8 - q else q

theorem segmentElement_lt (p : Nat) {q : Nat} (hq : q ≤ 8) : segmentElement p q < 9 := by
  unfold segmentElement
  split <;> omega

section
variable (m : Lorenz) (src : Seg11Source) {p q : Nat} (hp : p ≤ 11) (hq : q ≤ 8)
include hp hq

theorem Lorenz.segment_getElem? (w : WheelName) :
    (m.segment w p)[q]? = some (cellAhead m w (segmentElement p q)) := by
  have hlen : 9 ≤ w.len := by cases w <;> decide
  have htake (j : Nat) (hj : j < 9) : ((m.wheel w).asArray.take 9)[j]? = some (cellAhead m w j) := by
    rw [List.getElem?_take_of_lt hj]
    exact (m.wheel w).asArray_getElem? j (by omega)
  rw [segment, mirroredSegments_contains hp, segmentElement]
  by_cases heven : p % 2 = 0
  · have hnine : ((m.wheel w).asArray.take 9).length = 9 := by simp [hlen]
    rw [decide_eq_true heven, if_pos rfl, if_pos heven, List.getElem?_reverse (by omega), hnine]
    exact htake (8 - q) (by omega)
  · rw [decide_eq_false heven, if_neg Bool.false_ne_true, if_neg heven]
    exact htake q (by omega)

/-- The closed form of the snapshot (R133): what slot `9p + q` shows. -/
theorem Lorenz.draw_slot :
    (m.draw src).getLsbD (9 * p + q) = cellAhead m (segmentWheel src p) (segmentElement p q) := by
  have hsource : (segmentSources src).zipIdx[p]? = some (segmentWheel src p, p) := by
    rw [List.getElem?_zipIdx, segmentSources_getElem? src hp]
    simp
  have hslot : (m.drawBuffer src)[9 * p + q]? = some (cellAhead m (segmentWheel src p) (segmentElement p q)) := by
    rw [drawBuffer, getElem?_flatMap_of_length (fun x => m.segment_length x.1 x.2) hsource (by omega)]
    exact m.segment_getElem? hp hq _
  rw [draw_getLsbD m src _ (by omega), List.getD_eq_getElem?_getD, hslot, Option.getD_some]

end

/-- No slot shows a cell more than eight positions ahead of a head. -/
theorem Lorenz.draw_congr {m n : Lorenz} (src : Seg11Source)
    (h : ∀ w j, j < 9 → cellAhead m w j = cellAhead n w j) : m.draw src = n.draw src := by
  refine BitVec.eq_of_getLsbD_eq fun k hk => ?_
  have hp : k / 9 ≤ 11 := by omega
  have hq : k % 9 ≤ 8 := by omega
  rw [← Nat.div_add_mod k 9, m.draw_slot src hp hq, n.draw_slot src hp hq]
  exact h _ _ (segmentElement_lt _ hq)

/-- Settles O31: slot by slot (`Lorenz.draw_slot`); the command writes its response only. -/
theorem lzDrawClosedForm : Obligations.LzDrawClosedForm := by
  intro s
  refine ⟨_, s.lorenz.draw s.cfg.drawSeg11, exec_eq .lzDraw s, fun p q hp hq => ?_, rfl, ⟨rfl, rfl⟩, ⟨rfl, rfl⟩, rfl, rfl, rfl⟩
  rw [s.lorenz.draw_slot _ hp hq]
  exact apply_ite _ _ _ _

/-- Settles O33: the two snapshots are one (`Lorenz.draw_congr`), and each command answers its own. -/
theorem drawSeesNineCells : Obligations.DrawSeesNineCells := by
  intro s₁ s₂ hsrc hcells
  have hresp : commandResponse .lzDraw s₂ = commandResponse .lzDraw s₁ := by
    rw [commandResponse, commandResponse, ← hsrc, Lorenz.draw_congr _ hcells]
  obtain ⟨t₁, hx₁, ha₁⟩ := exec_answers .lzDraw s₁
  obtain ⟨t₂, hx₂, ha₂⟩ := exec_answers .lzDraw s₂
  exact ⟨t₁, t₂, commandResponse .lzDraw s₁, hx₁, hx₂, ha₁, hresp ▸ ha₂⟩

end Sys2Proof.Machine
end

section
/-! PROOFS. The ITA2 tables (spec/44_ita2_tables.md R140 to R144): the shared codes, the classes of characters, values that are no
scalar value, and the default tables. -/

namespace Sys2Proof.Machine

open Safety

variable {k : Config} {c : CharCode} {u v : CodeUnit}

/-! ## Shared characters -/

/-- The statements' table of the shared codes (R140) is the machine's. -/
theorem mapsShared_iff : MapsShared c v ↔ (v, c) ∈ sharedCodes := by
  simp [MapsShared, sharedCodes, and_comm]

theorem isShared_eq_false (h : ¬ SharedChar c) : isShared c = false := by
  refine sharedCodeOf_eq_none_iff.mp (Option.eq_none_iff_forall_ne_some.mpr fun v hv => h ⟨v, ?_⟩)
  exact mapsShared_iff.mpr (sharedCodeOf_eq_some_iff.mp hv)

theorem entry_of_mapsShared (wf : k.WellFormed) (h : MapsShared c v) (fs : Bool) : entry (activeTable k fs) v = some c := by
  obtain ⟨hl, hf⟩ := wf.entry_shared (mapsShared_iff.mp h)
  cases fs with
  | false => exact hl
  | true => exact hf

theorem mapsShared_unique (wf : k.WellFormed) (hu : MapsShared c u) (hv : MapsShared c v) : u = v :=
  wf.shared_only_there (mapsShared_iff.mp hv) (entry_of_activeTable (entry_of_mapsShared wf hu false))

/-- `DEC.STEP` of a shared code answers its character and writes nothing else (R151). -/
theorem exec_decStep_of_mapsShared {s : State} (wf : s.cfg.WellFormed) (h : MapsShared c v) :
    exec (.decStep v) s = .next (s.respond (.char c)) := by
  have hd : decodeUnit s.cfg s.fsDec v = (s.fsDec, .char c) := decodeUnit_of_entry wf (entry_of_mapsShared wf h _)
  rw [exec_eq, commandState, commandResponse, hd]
  rfl

/-- Settles O36: under well-formed tables both tables hold the shared characters at their codes. -/
theorem sharedCodesDecodeAlike : Obligations.SharedCodesDecodeAlike :=
  fun _ _ _ wf h => ⟨_, exec_decStep_of_mapsShared wf h, rfl, rfl, rfl, rfl⟩

/-! ## The classes of characters -/

/-- Settles O39: by the class of the character, looked for in the order of R143: shared, in `LTRS`, in `FIGS`. -/
theorem characterClassesExclusive : Obligations.CharacterClassesExclusive := by
  intro k c wf
  by_cases hshared : SharedChar c
  case pos =>
    obtain ⟨v, hv⟩ := hshared
    have hentry := entry_of_activeTable (entry_of_mapsShared wf hv false)
    refine .inr ⟨fun hun => hentry.elim (hun v).1 (hun v).2, v, not_isControl_of_entry wf hentry, .inl ⟨hv, fun u => ?_⟩⟩
    exact ⟨fun hu => mapsShared_unique wf hu hv, fun hl => hl.1 ⟨v, hv⟩, fun hf => hf.1 ⟨v, hv⟩⟩
  have hns : ∀ u, ¬ MapsShared c u := not_exists.mp hshared
  have hother := isShared_eq_false hshared
  by_cases hltrs : ∃ v, entry k.ltrs v = some c
  case pos =>
    obtain ⟨v, hv⟩ := hltrs
    refine .inr ⟨fun hun => (hun v).1 hv, v, not_isControl_of_entry wf (.inl hv), .inr (.inl ⟨⟨hshared, hv⟩, fun u => ?_⟩)⟩
    exact ⟨hns u, fun hu => wf.ltrs_unique hother hu.2 hv, fun hf => hf.2.1 v hv⟩
  have hnl : ∀ u, entry k.ltrs u ≠ some c := not_exists.mp hltrs
  by_cases hfigs : ∃ v, entry k.figs v = some c
  case pos =>
    obtain ⟨v, hv⟩ := hfigs
    refine .inr ⟨fun hun => (hun v).2 hv, v, not_isControl_of_entry wf (.inr hv), .inr (.inr ⟨⟨hshared, hnl, hv⟩, fun u => ?_⟩)⟩
    exact ⟨hns u, fun hl => hnl u hl.2, fun hu => wf.figs_unique hother hu.2.2 hv⟩
  have hnf : ∀ u, entry k.figs u ≠ some c := not_exists.mp hfigs
  exact .inl ⟨fun u => ⟨hnl u, hnf u⟩, fun u => ⟨hns u, fun hl => hnl u hl.2, fun hf => hnf u hf.2.2⟩⟩

/-- `ENC.STEP` of a value that is no scalar value answers `NONE` and writes nothing else (R144, R161). -/
theorem exec_encStep_of_not_scalar (s : State) (h : isScalar c = false) : exec (.encStep c) s = .next (s.respond .none) := by
  rw [exec_eq, commandState, commandResponse, encodeChar_of_not_scalar _ _ h]
  rfl

/-- Settles O40: the reverse map gives nothing to such a value, whatever the tables hold. -/
theorem nonScalarIsSkipped : Obligations.NonScalarIsSkipped :=
  fun s _ h => ⟨_, exec_encStep_of_not_scalar s (isScalar_eq_false h), rfl, rfl, rfl, rfl, rfl, rfl⟩

/-! ## The default tables -/

/-- R141 is a check of finitely many entries, evaluated condition by condition. -/
theorem defaultConfig_wellFormed : defaultConfig.WellFormed where
  sharedFixed := by decide
  controlsUndefined := by decide
  sharedOnlyThere := by decide
  othersOnce := by decide
  namedCharacters := by decide
  entriesScalar := by decide
  entriesFit := by decide

/-- Settles O43: the counts are those of the lists of the entries. -/
theorem defaultTablesWellFormed : Obligations.DefaultTablesWellFormed :=
  ⟨defaultConfig_wellFormed, by decide, by decide, by decide, by decide⟩

/-- Settles O46: the reset block has the default tables, and the host has observed nothing. -/
theorem resetHasInv : Obligations.ResetHasInv :=
  ⟨defaultConfig_wellFormed, fun _ h => absurd h List.not_mem_nil⟩

end Sys2Proof.Machine
end

section
/-! PROOFS. Where the Encoder's shift controls stand (spec/46_ita2_encoder.md R161, R162, R164): first in a pair that changes the
state, and before a unit that is none in the flat stream. -/

namespace Sys2Proof.Machine

open Safety

/-- A pair changes the Encoder's state, and its first unit is the control of the new state (R161). -/
theorem encodeChar_pair {k : Config} {fs : Bool} {c : CharCode} {u v : CodeUnit} (h : (encodeChar k fs c).2 = .unit2 u v) :
    (encodeChar k fs c).1 = !fs ∧ u = shiftControl (!fs) := by
  match hm : encMap k c with
  | none => simp [encodeChar, hm] at h
  | some (w, .shared) => simp [encodeChar, hm] at h
  | some (w, .letters) =>
    cases fs with
    | false => simp [encodeChar, hm] at h
    | true =>
      obtain ⟨rfl, -⟩ : ltrsCode = u ∧ w = v := by simpa [encodeChar, hm] using h
      exact ⟨by simp [encodeChar, hm], rfl⟩
  | some (w, .figures) =>
    cases fs with
    | false =>
      obtain ⟨rfl, -⟩ : figsCode = u ∧ w = v := by simpa [encodeChar, hm] using h
      exact ⟨by simp [encodeChar, hm], rfl⟩
    | true => simp [encodeChar, hm] at h

/-! ## The flat stream -/

theorem controlsLead_append {us vs : List CodeUnit} (hus : ControlsLead us) (hvs : ControlsLead vs) :
    ControlsLead (us ++ vs) := by
  intro n u hn hu
  obtain hlt | hle := Nat.lt_or_ge n us.length
  · rw [List.getElem?_append_left hlt] at hn
    obtain ⟨v, hv, hnv⟩ := hus n u hn hu
    obtain ⟨hlt', -⟩ := List.getElem?_eq_some_iff.mp hv
    exact ⟨v, by rwa [List.getElem?_append_left hlt'], hnv⟩
  · rw [List.getElem?_append_right hle] at hn
    obtain ⟨v, hv, hnv⟩ := hvs _ u hn hu
    refine ⟨v, ?_, hnv⟩
    rwa [List.getElem?_append_right (by omega), Nat.sub_add_comm hle]

/-- In the units of one legal response a control comes before a unit that is none. -/
theorem controlsLead_unitsOf {charW : Nat} {r : Response} (h : Legal charW r) : ControlsLead (unitsOf r) := by
  intro n u hn hu
  cases r with
  | unit1 w =>
    obtain ⟨-, rfl⟩ : n = 0 ∧ w = u := by simpa [unitsOf, List.getElem?_singleton] using hn
    exact absurd hu h
  | unit2 w v =>
    obtain ⟨-, hv⟩ := h
    match n with
    | 0 => exact ⟨v, rfl, hv⟩
    | 1 =>
      obtain rfl : v = u := by simpa [unitsOf] using hn
      exact absurd hu hv
    | n + 2 => simp [unitsOf] at hn
  | _ => simp [unitsOf] at hn

theorem controlsLead_flatUnits {charW : Nat} {rs : List Response} (h : ∀ r ∈ rs, Legal charW r) :
    ControlsLead (flatUnits rs) := by
  induction rs with
  | nil => intro n u hn; simp [flatUnits] at hn
  | cons r rs ih =>
    obtain ⟨hr, hrs⟩ := List.forall_mem_cons.mp h
    exact controlsLead_append (controlsLead_unitsOf hr) (ih hrs)

theorem commandResponses_legal {s : State} (wf : s.cfg.WellFormed) (is : List Instr) :
    ∀ r ∈ commandResponses is s, Legal s.cfg.charW r := by
  induction is generalizing s with
  | nil => simp
  | cons i is ih =>
    have hnext := ih (s := afterCommand i s) (by simpa using wf)
    rw [afterCommand_cfg] at hnext
    exact List.forall_mem_cons.mpr ⟨commandResponse_legal wf i, hnext⟩

/-- Settles O42: a pair changes the state (`encodeChar_pair`), and the responses to the string are all legal. -/
theorem encoderControlsLead : Obligations.EncoderControlsLead := by
  refine ⟨fun s t c u v wf hx hr => ?_, fun s cs rest wf hcs hm => ?_⟩
  · rw [exec_eq] at hx
    injection hx with hx
    subst hx
    have hpair : (encodeChar s.cfg s.fsEnc c).2 = .unit2 u v := by simpa [commandState_responses, commandResponse] using hr
    obtain ⟨hflag, rfl⟩ := encodeChar_pair hpair
    have hlegal := encodeChar_legal wf s.fsEnc c
    rw [hpair] at hlegal
    refine ⟨?_, hflag, hlegal.2⟩
    cases s.fsEnc with
    | false => exact .inl ⟨rfl, rfl⟩
    | true => exact .inr ⟨rfl, rfl⟩
  · have hrun := runSteps_commandMoves hm (List.forall_mem_map.mpr hcs)
    rw [encStr, List.length_map] at hrun
    exact ⟨_, _, hrun, afterCommands_responses _ s, controlsLead_flatUnits (commandResponses_legal wf _)⟩

end Sys2Proof.Machine
end

section
/-! PROOFS. The ITA2 Decoder (spec/45_ita2_decoder.md R150, R151): its construction, and its step on a shift control and on any other
code. -/

namespace Sys2Proof.Machine

open Safety

variable {k : Config} {fs : Bool} {v : CodeUnit}

/-- Settles O34: `DEC.INIT` writes `FS_DEC` and its response, and a second one writes the flag with the value it has. -/
theorem decInitClearsFlag : Obligations.DecInitClearsFlag := fun s =>
  ⟨_, exec_eq .decInit s, rfl, rfl, rfl, ⟨rfl, rfl⟩, ⟨rfl, rfl, rfl⟩, rfl⟩

/-- A unit that is no shift control is looked up in the active table, and the flag stays (R151). -/
theorem decodeUnit_of_not_isControl (h : ¬ IsControl v) :
    decodeUnit k fs v = (fs, (entry (activeTable k fs) v).elim .none .char) := by
  obtain ⟨hv, -⟩ | ⟨hv, -⟩ | ⟨-, -, he, hd⟩ | ⟨c, -, -, he, hd⟩ := decodeUnit_cases k fs v
  · exact absurd (.inl hv) h
  · exact absurd (.inr hv) h
  · rw [hd, he, Option.elim_none]
  · rw [hd, he, Option.elim_some]

/-- `NONE` does not tell a shift control from a skipped code (R151 corner case iii). -/
theorem decodeUnit_eq_none_iff : (decodeUnit k fs v).2 = .none ↔ IsControl v ∨ entry (activeTable k fs) v = none := by
  obtain ⟨hv, hd⟩ | ⟨hv, hd⟩ | ⟨-, -, he, hd⟩ | ⟨c, hf, hl, he, hd⟩ := decodeUnit_cases k fs v
  · exact iff_of_true (by rw [hd]) (.inl (.inl hv))
  · exact iff_of_true (by rw [hd]) (.inl (.inr hv))
  · exact iff_of_true (by rw [hd]) (.inr he)
  · simp [hd, he, isControl_iff, hf, hl]

/-- The holes of the default tables (R142): the shift controls in both, and 0x14 in `FIGS`. -/
theorem entry_default_eq_none_iff :
    entry (activeTable defaultConfig fs) v = none ↔ IsControl v ∨ (v = 0x14#5 ∧ fs = true) := by
  have key : ∀ (fs : Bool) (v : CodeUnit), entry (activeTable defaultConfig fs) v = none ↔
      (v = figsCode ∨ v = ltrsCode) ∨ (v = 0x14#5 ∧ fs = true) := by decide
  exact key fs v

/-- Settles O35: a shift control is `shiftControl` of the state it selects, any other code is looked up. -/
theorem decStepTransition : Obligations.DecStepTransition := by
  intro s v
  refine ⟨_, (decodeUnit s.cfg s.fsDec v).2, exec_eq (.decStep v) s, ⟨rfl, rfl, rfl⟩, rfl, rfl, ⟨rfl, rfl⟩, ?_⟩
  rw [State.respond_fsDec, commandState, State.setFsDec_fsDec]
  refine ⟨?figures, ?letters, ?other, ?shared, ?default⟩
  case figures =>
    rintro rfl
    exact Prod.ext_iff.mp (decodeUnit_shiftControl s.cfg s.fsDec true)
  case letters =>
    rintro rfl
    exact Prod.ext_iff.mp (decodeUnit_shiftControl s.cfg s.fsDec false)
  case other =>
    intro hf hl
    rw [decodeUnit_of_not_isControl (not_or.mpr ⟨hf, hl⟩)]
    refine ⟨rfl, fun hfs => ?_, fun hfs => ?_⟩
    · rw [hfs]
      change (entry s.cfg.figs v).elim _ _ = _
      cases entry s.cfg.figs v <;> rfl
    · rw [hfs]
      change (entry s.cfg.ltrs v).elim _ _ = _
      cases entry s.cfg.ltrs v <;> rfl
  case shared =>
    intro wf c hc
    rw [decodeUnit_of_entry wf (entry_of_mapsShared wf hc s.fsDec)]
    exact ⟨rfl, rfl⟩
  case default =>
    intro hl hf
    rw [decodeUnit_congr (k := defaultConfig) hl hf, decodeUnit_eq_none_iff, entry_default_eq_none_iff, or_self_left, isControl_iff,
      or_assoc]
    rfl

end Sys2Proof.Machine
end

section
/-! PROOFS. The ITA2 Encoder (spec/46_ita2_encoder.md R160, R161): its construction, and its step on a character of each class. -/

namespace Sys2Proof.Machine

open Safety

variable {k : Config} {fs : Bool} {c : CharCode} {v : CodeUnit}

/-- Settles O37: `ENC.INIT` writes `FS_ENC` and its response, and a second one writes the flag with the value it has. -/
theorem encInitClearsFlag : Obligations.EncInitClearsFlag := fun s =>
  ⟨_, exec_eq .encInit s, rfl, rfl, rfl, ⟨rfl, rfl⟩, ⟨rfl, rfl, rfl⟩, rfl⟩

/-! ## The reverse map on the classes of characters (R143) -/

theorem encMap_of_unmapped (wf : k.WellFormed) (h : Unmapped k c) : encMap k c = none :=
  Option.eq_none_iff_forall_ne_some.mpr fun ⟨u, _⟩ hm => (entry_of_encMap wf hm).elim (h u).1 (h u).2

theorem codeOf_eq_some {t : CodeTable} (h : entry t v = some c) (huniq : ∀ u, entry t u = some c → u = v) :
    codeOf t c = some v := by
  cases hc : codeOf t c with
  | none => exact absurd h (codeOf_eq_none_iff.mp hc v)
  | some u => rw [huniq u (entry_of_codeOf hc)]

theorem encMap_of_mapsShared (wf : k.WellFormed) (h : MapsShared c v) : encMap k c = some (v, .shared) := by
  have hscalar := wf.entry_scalar (entry_of_activeTable (entry_of_mapsShared wf h false))
  have hshared := sharedCodeOf_eq_some_iff.mpr (mapsShared_iff.mp h)
  simp [encMap, hscalar, hshared]

theorem encMap_of_mapsLetters (wf : k.WellFormed) (h : MapsLetters k c v) : encMap k c = some (v, .letters) := by
  obtain ⟨hns, hv⟩ := h
  have hother := isShared_eq_false hns
  have hscalar := wf.entry_scalar (.inl hv)
  have hltrs : codeOf k.ltrs c = some v := codeOf_eq_some hv fun _ hu => wf.ltrs_unique hother hu hv
  simp [encMap, hscalar, sharedCodeOf_eq_none_iff.mpr hother, hltrs]

theorem encMap_of_mapsFigures (wf : k.WellFormed) (h : MapsFigures k c v) : encMap k c = some (v, .figures) := by
  obtain ⟨hns, hnl, hv⟩ := h
  have hother := isShared_eq_false hns
  have hscalar := wf.entry_scalar (.inr hv)
  have hfigs : codeOf k.figs c = some v := codeOf_eq_some hv fun _ hu => wf.figs_unique hother hu hv
  simp [encMap, hscalar, sharedCodeOf_eq_none_iff.mpr hother, codeOf_eq_none_iff.mpr hnl, hfigs]

/-! ## The Encoder's step: the rows of R161's table -/

theorem encodeChar_of_unmapped (wf : k.WellFormed) (h : Unmapped k c) : encodeChar k fs c = (fs, .none) := by
  rw [encodeChar, encMap_of_unmapped wf h]

theorem encodeChar_of_mapsShared (wf : k.WellFormed) (h : MapsShared c v) : encodeChar k fs c = (fs, .unit1 v) := by
  rw [encodeChar, encMap_of_mapsShared wf h]

theorem encodeChar_of_mapsLetters (wf : k.WellFormed) (h : MapsLetters k c v) :
    encodeChar k fs c = (false, if fs then .unit2 ltrsCode v else .unit1 v) := by
  rw [encodeChar, encMap_of_mapsLetters wf h]
  cases fs <;> rfl

theorem encodeChar_of_mapsFigures (wf : k.WellFormed) (h : MapsFigures k c v) :
    encodeChar k fs c = (true, if fs then .unit1 v else .unit2 figsCode v) := by
  rw [encodeChar, encMap_of_mapsFigures wf h]
  cases fs <;> rfl

/-! ## Lower-case letters (R161 corner case vi) -/

/-- Every character of the default tables (R142) lies below the lower-case letters. -/
theorem entry_default_lt (h : entry (activeTable defaultConfig fs) v = some c) : c.toNat < 0x61 := by
  have key : ∀ (fs : Bool) (v : CodeUnit), (entry (activeTable defaultConfig fs) v).all (·.toNat < 0x61) = true := by decide
  simpa [h] using key fs v

theorem unmapped_of_lower_case (hl : k.ltrs = defaultLtrs) (hf : k.figs = defaultFigs) (hc : 0x61 ≤ c.toNat) :
    Unmapped k c := by
  intro v
  rw [hl, hf]
  exact ⟨fun h => (entry_default_lt (fs := false) h).not_ge hc, fun h => (entry_default_lt (fs := true) h).not_ge hc⟩

/-- Settles O38: each class of characters has its row of R161's table, and which units are controls is
`encodeChar_legal`. -/
theorem encStepTransition : Obligations.EncStepTransition := by
  intro s c wf
  have hlegal := encodeChar_legal wf s.fsEnc c
  refine ⟨_, (encodeChar s.cfg s.fsEnc c).2, exec_eq (.encStep c) s, ⟨rfl, rfl, rfl⟩, rfl, rfl, ⟨rfl, rfl⟩, ?_⟩
  rw [State.respond_fsEnc, commandState, State.setFsEnc_fsEnc]
  have hskip (hun : Unmapped s.cfg c) : (encodeChar s.cfg s.fsEnc c).2 = .none ∧ (encodeChar s.cfg s.fsEnc c).1 = s.fsEnc := by
    rw [encodeChar_of_unmapped wf hun]
    exact ⟨rfl, rfl⟩
  refine ⟨hskip, ?shared, ?letters, ?figures, ?notScalar, ?single, ?pair, ?lowerCase⟩
  case shared =>
    intro v hv
    rw [encodeChar_of_mapsShared wf hv]
    exact ⟨rfl, rfl⟩
  case letters =>
    intro v hv
    rw [encodeChar_of_mapsLetters wf hv]
    exact ⟨rfl, rfl⟩
  case figures =>
    intro v hv
    rw [encodeChar_of_mapsFigures wf hv]
    exact ⟨rfl, rfl⟩
  case notScalar =>
    intro hc
    rw [encodeChar_of_not_scalar _ _ (isScalar_eq_false hc)]
    exact ⟨rfl, rfl⟩
  case single =>
    intro v hr
    rwa [hr] at hlegal
  case pair =>
    intro u v hr
    rwa [hr] at hlegal
  case lowerCase => exact fun hl hf hc _ => hskip (unmapped_of_lower_case hl hf hc)

end Sys2Proof.Machine
end

section
/-! PROOFS. No operation is fatal (spec/60_exceptions.md R170, R172): the kinds of the responses (spec/30_encoding.md R73), and the
step on every move of the host, on a reserved word and on none at all (spec/70_reset_and_hazards.md R191). -/

namespace Sys2Proof.Machine

open Safety

/-! ## The kinds of the responses -/

/-- The Decoder answers `NONE` or `CHAR` (R151). -/
theorem kindOf_decodeUnit (k : Config) (fs : Bool) (v : CodeUnit) : kindOf (decodeUnit k fs v).2 ∈ [0, 1] := by
  obtain ⟨-, he⟩ | ⟨-, he⟩ | ⟨-, -, -, he⟩ | ⟨c, -, -, -, he⟩ := decodeUnit_cases k fs v <;> simp [he, kindOf]

/-- The Encoder answers `NONE`, `UNIT1` or `UNIT2` (R161). -/
theorem kindOf_encodeChar (k : Config) (fs : Bool) (c : CharCode) : kindOf (encodeChar k fs c).2 ∈ [0, 2, 3] := by
  match hm : encMap k c with
  | none => simp [encodeChar, hm, kindOf]
  | some (v, .shared) => simp [encodeChar, hm, kindOf]
  | some (v, .letters) => cases fs <;> simp [encodeChar, hm, kindOf]
  | some (v, .figures) => cases fs <;> simp [encodeChar, hm, kindOf]

theorem kindOf_commandResponse (i : Instr) (s : State) : kindOf (commandResponse i s) ∈ kindsOf i := by
  cases i with
  | decStep v => exact kindOf_decodeUnit s.cfg s.fsDec v
  | encStep c => exact kindOf_encodeChar s.cfg s.fsEnc c
  | _ => exact List.mem_singleton_self _

/-- Settles O44: the one response is `commandResponse`, whose kinds only the two codec steps leave open. -/
theorem everyCommandAnswersOnce : Obligations.EveryCommandAnswersOnce := by
  intro i s
  obtain ⟨t, hexec, hanswers⟩ := exec_answers i s
  exact ⟨t, commandResponse i s, hexec, hanswers, kindOf_commandResponse i s⟩

/-! ## The step on every move of the host -/

theorem step_of_no_move {s : State} (h : s.hostMoves = []) : step s = .next s := by
  simp [step, State.nextMove, h]

/-- Settles O8: the step on an empty queue. -/
theorem waitsForTheHost : Obligations.WaitsForTheHost := fun _ h => step_of_no_move h

theorem runWord_of_decode_error {w : Cmd} {s : State} {e : DecodeError} (h : decode s.cfg.charW w = .error e) :
    runWord w s = reservedWord w s := by
  simp [runWord, h]

/-- A command word gives a next state, whether it is a command's or, where the block ignores these, a reserved one. -/
theorem exists_runWord_next (w : Cmd) {s : State} (h : s.cfg.reservedWords = .ignore) : ∃ t, runWord w s = .next t := by
  cases hd : decode s.cfg.charW w with
  | ok i => exact ⟨_, (runWord_of_decode hd).trans (exec_eq i s)⟩
  | error e => exact ⟨_, (runWord_of_decode_error hd).trans (reservedWord_of_ignore w h)⟩

/-- Settles O12: the block waits, is reset, or carries out a command word. -/
theorem noStepIsFatal : Obligations.NoStepIsFatal := by
  intro s h
  match hm : s.hostMoves with
  | [] => exact ⟨s, step_of_no_move hm⟩
  | .reset :: rest => exact ⟨_, step_of_reset hm⟩
  | .command w :: rest =>
    rw [step_of_command hm]
    exact exists_runWord_next w h

end Sys2Proof.Machine
end

section
/-! PROOFS. The reset that zeroes the wheels (spec/70_reset_and_hazards.md R190), and the three commands it is equivalent to. -/

namespace Sys2Proof.Machine

open Safety

/-- `LZ.ZERO`, `DEC.INIT`, `ENC.INIT` issued in order answer three times, and otherwise leave what the reset leaves (R190). -/
theorem afterCommands_eq_hostReset {s : State} (h : s.cfg.resetLoad = .zeroed) :
    afterCommands [.lzZero, .decInit, .encInit] s =
      { s.hostReset with responses := s.responses ++ [.none] ++ [.none] ++ [.none] } := by
  rw [State.hostReset_zeroed h]
  rfl

/-- Settles O9: the reset loads the zeroed machine, and so do the three commands run one after the other. -/
theorem hostResetClears : Obligations.HostResetClears := by
  intro s rest hm hload
  have hstep := step_of_reset hm
  rw [State.hostReset_zeroed (s := { s with hostMoves := rest }) hload] at hstep
  let is : List Instr := [.lzZero, .decInit, .encInit]
  let p : State := { s with hostMoves := commandMoves is ++ rest }
  have hfits : ∀ i ∈ is, OperandFits p.cfg.charW i := by simp [is, OperandFits]
  have hrun : runSteps 3 p = .next { afterCommands is p with hostMoves := rest } := runSteps_commandMoves rfl hfits
  rw [afterCommands_eq_hostReset (s := p) hload, State.hostReset_zeroed (s := p) hload] at hrun
  exact ⟨_, hstep, zeroedLorenz_cells, zeroedLorenz_head, rfl, rfl, rfl, rfl, ⟨rfl, rfl⟩, rfl, _, hrun, rfl, rfl, rfl, rfl⟩

end Sys2Proof.Machine
end
